-- ==== Sys2Proof/Word.lean ====
section
/-! DEFINITION. The unsigned quantities of the FCC (00_scope.md R10): bytes, and 16- and 32-bit values. -/

namespace Sys2Proof

/-- A byte: 8 bits, unsigned (R10). -/
abbrev Byte := BitVec 8

/-- A `u16` (R10). -/
abbrev U16 := BitVec 16

/-- A `u32` (R10). -/
abbrev U32 := BitVec 32

end Sys2Proof
end

