-- ==== Sys2Proof/Config.lean ====
section
/-! DEFINITION. The implementation parameters of 00_scope.md R6. `TICK_PERIOD` is left out (R6: "No rule of the
model depends on it"); `DEADLINE_W` is 16, the width of `REM` and of the deadline operand (`U16`). -/

namespace Sys2Proof

/-- The parameters the model takes as arguments (R6). They are carried in every state and no step changes them, so a
statement over all states holds for every implementation (log 8). -/
structure Config where
  /-- `BUF_CAP`, the capacity of `BUF` in bytes, 12 to 65544 (R6). -/
  bufCap : { n : Nat // 12 ≤ n ∧ n ≤ 65544 }
  /-- `VERIFY_CHECKSUM`: whether DECODE rejects a frame whose checksum disagrees (R6, R110). -/
  verifyChecksum : Bool
deriving DecidableEq, Repr

/-- `BUF_CAP` as a number. -/
abbrev Config.cap (c : Config) : Nat := c.bufCap.val

/-- What this implementation's `BUF_CAP` has above the least value 12: OPEN (R6), so a constant nothing can evaluate
(log 8). -/
opaque Config.freeCapAbove12 : Fin 65533

/-- This implementation's `VERIFY_CHECKSUM`: OPEN (R6, R110), so a constant nothing can evaluate (log 8). -/
opaque Config.freeVerifyChecksum : Bool

/-- The parameters of the implementation at hand, both OPEN (log 8). -/
def Config.implementation : Config where
  bufCap := ⟨12 + Config.freeCapAbove12.val, by omega, by have := Config.freeCapAbove12.isLt; omega⟩
  verifyChecksum := Config.freeVerifyChecksum

end Sys2Proof
end

