-- ==== Sys2Proof/Syntax.lean ====
section
/-! DEFINITION. What is presented on the ports of the FCC, and the instructions: one constructor of `Instr` for every
row of spec/opcode_table.json. -/

namespace Sys2Proof

/-- `EXPMODE` (10_state.md R23, R27): how the decoded payload length is compared with `EXPLEN`. -/
inductive ExpMode where
  /-- The length must equal `EXPLEN`. -/
  | exact
  /-- The length must be at least `EXPLEN`. -/
  | atLeast
deriving DecidableEq, Repr

/-- The lines of the command port (30_encoding.md R85): a 3-bit operation code and the operands of R86. An operation
reads its own operands and ignores the other lines. DESIGN CHOICE: the spec gives the operands no bit layout (log 4). -/
structure CommandLines where
  /-- The operation code, 0 to 7 (R86). -/
  op : BitVec 3
  /-- `A` of ENCODE. -/
  addr : U32
  /-- `T` of ENCODE. -/
  ptype : Byte
  /-- `P` of ENCODE, `raw` of DECODE. -/
  data : List Byte
  /-- `d` of BEGIN. -/
  deadline : U16
  /-- `explen` of BEGIN. -/
  explen : U16
  /-- `expmode` of BEGIN: 0 `EXACT`, 1 `ATLEAST` (R90). -/
  expmode : BitVec 1
deriving DecidableEq, Repr

/-- One item the environment presents on a port (30_encoding.md R85, R89; log 1). -/
inductive Presented where
  /-- The reset input: a one-bit strobe. -/
  | reset (strobe : BitVec 1)
  /-- The command port: one operation. -/
  | command (lines : CommandLines)
  /-- The command port again: a command payload the host wants sent from the link address `addr` as `ENCODE addr, 1,
  bytes` (42_command_payloads.md R150; log 6). -/
  | payload (addr : U32) (bytes : List Byte)
  /-- The receive port: one inbound chunk, of any length and alignment (R89). -/
  | receive (chunk : List Byte)
  /-- The tick input: a one-bit strobe. -/
  | tick (strobe : BitVec 1)
deriving DecidableEq, Repr

/-- The instructions: the 27 rows of spec/opcode_table.json, in the table's order. In a frame row `l` is the declared
length `L` and `body` the bytes from offset 9 on (payload, then checksum); in a command row `a` is the link address the
host supplies (R103, D25). -/
inductive Instr where
  /-- FRAME.COMMAND: a frame of packet type 1 (R70, R73). -/
  | frameCommand (a : U32) (l : U16) (body : List Byte)
  /-- FRAME.DATA: packet type 2. -/
  | frameData (a : U32) (l : U16) (body : List Byte)
  /-- FRAME.ACK: packet type 7. -/
  | frameAck (a : U32) (l : U16) (body : List Byte)
  /-- FRAME.END: packet type 8. -/
  | frameEnd (a : U32) (l : U16) (body : List Byte)
  /-- FRAME.RESERVED: any packet type other than 1, 2, 7, 8 (R81). -/
  | frameReserved (t : Byte) (a : U32) (l : U16) (body : List Byte)
  /-- NOP: operation 0 (R120). -/
  | nop
  /-- ENCODE: operation 1 (R103). -/
  | encodeFrame (a : U32) (t : Byte) (p : List Byte)
  /-- DECODE: operation 2 (R107). -/
  | decodeFrame (raw : List Byte)
  /-- BEGIN: operation 3 (R122, R123). -/
  | beginExchange (d explen : U16) (mode : ExpMode)
  /-- CLRF: operation 4 (R134). -/
  | clrf
  /-- RELEASE: operation 5 (R133). -/
  | release
  /-- OP6: reserved operation 6 (R136). -/
  | op6
  /-- OP7: reserved operation 7 (R136). -/
  | op7
  /-- RX: one received byte (R124, R125). -/
  | rx (b : Byte)
  /-- TICK: one period of the time base (R126, R127). -/
  | tick
  /-- RESET (R137, R220). -/
  | reset
  /-- CMD.CAPTURE_IMAGE (R151). -/
  | cmdCaptureImage (a : U32)
  /-- CMD.EXTRACT_FEATURES (R152). -/
  | cmdExtractFeatures (a : U32) (slot : Byte)
  /-- CMD.REGISTER_MODEL (R153). -/
  | cmdRegisterModel (a : U32)
  /-- CMD.STORE_MODEL (R154). -/
  | cmdStoreModel (a : U32) (id : U16)
  /-- CMD.LOAD_MODEL (R155). -/
  | cmdLoadModel (a : U32) (id : U16)
  /-- CMD.UPLOAD_MODEL (R156). -/
  | cmdUploadModel (a : U32)
  /-- CMD.DELETE_MODEL (R157). -/
  | cmdDeleteModel (a : U32) (id : U16)
  /-- CMD.EMPTY_DATABASE (R158). -/
  | cmdEmptyDatabase (a : U32)
  /-- CMD.VERIFY_PASSWORD (R159). -/
  | cmdVerifyPassword (a : U32) (password : U32)
  /-- CMD.FAST_SEARCH (R160). -/
  | cmdFastSearch (a : U32)
  /-- CMD.TEMPLATE_COUNT (R161). -/
  | cmdTemplateCount (a : U32)
deriving DecidableEq, Repr

end Sys2Proof
end

