-- ==== Sys2Proof/Machine/Operands.lean ====
section
/-! DEFINITION. Byte sequences and the big-endian fields in them (00_scope.md R11, R12; 20_memory.md R53), the packet
types (30_encoding.md R73), the bytes of a frame (R70) and of the eleven command payloads (42_command_payloads.md). -/

namespace Sys2Proof.Machine

/-- `v[15:8]` of a `u16` (R11). -/
def hi8 (v : U16) : Byte := v.extractLsb' 8 8

/-- `v[7:0]` of a `u16` (R11). -/
def lo8 (v : U16) : Byte := v.extractLsb' 0 8

/-- `to_be16(v)` (R12). -/
def toBe16 (v : U16) : List Byte := [hi8 v, lo8 v]

/-- `to_be32(v)` (R12). -/
def toBe32 (v : U32) : List Byte :=
  [v.extractLsb' 24 8, v.extractLsb' 16 8, v.extractLsb' 8 8, v.extractLsb' 0 8]

/-- `s[i]` (R12). Every caller has tested `i < len(s)`, so the byte beyond the end is never taken. -/
def byteAt (s : List Byte) (i : Nat) : Byte := s.getD i 0

/-- `s[i..j)` (R12). -/
def slice (s : List Byte) (i j : Nat) : List Byte := (s.drop i).take (j - i)

/-- Two bytes as a big-endian `u16`: `h * 256 + l` (R12). -/
def word16 (h l : Byte) : U16 := BitVec.ofNat 16 (h.toNat * 256 + l.toNat)

/-- Four bytes as a big-endian `u32` (R12). -/
def word32 (b3 b2 b1 b0 : Byte) : U32 :=
  BitVec.ofNat 32 (b3.toNat * 2 ^ 24 + b2.toNat * 2 ^ 16 + b1.toNat * 2 ^ 8 + b0.toNat)

/-- `be16(s, i)` (R12). -/
def be16 (s : List Byte) (i : Nat) : U16 := word16 (byteAt s i) (byteAt s (i + 1))

/-- `be32(s, i)` (R12). -/
def be32 (s : List Byte) (i : Nat) : U32 :=
  word32 (byteAt s i) (byteAt s (i + 1)) (byteAt s (i + 2)) (byteAt s (i + 3))

/-- `sum(s)`: the sum of the bytes as an unbounded natural number (R12). -/
def byteSum : List Byte → Nat
  | [] => 0
  | b :: s => b.toNat + byteSum s

/-- `PT_COMMAND` (R73). -/
def ptCommand : Byte := 1
/-- `PT_DATA` (R73). -/
def ptData : Byte := 2
/-- `PT_ACK` (R73). -/
def ptAck : Byte := 7
/-- `PT_END` (R73). -/
def ptEnd : Byte := 8

/-- The four packet types with a meaning; every other value is reserved (R81). -/
def definedTypes : List Byte := [ptCommand, ptData, ptAck, ptEnd]

/-- The start marker, big-endian (R70, R71). -/
def startMarker : List Byte := [0xEF, 0x01]

/-- A frame in transmission order: the 9 header bytes, then `body` (payload and checksum) (R70, R80). -/
def frameBytes (a : U32) (t : Byte) (l : U16) (body : List Byte) : List Byte :=
  startMarker ++ toBe32 a ++ [t] ++ toBe16 l ++ body

/-- The payload of capture image (R151). -/
def payloadCaptureImage : List Byte := [0x01]
/-- The payload of extract features (R152). -/
def payloadExtractFeatures (slot : Byte) : List Byte := [0x02, slot]
/-- The payload of register model (R153). -/
def payloadRegisterModel : List Byte := [0x05]
/-- The payload of store model (R154). -/
def payloadStoreModel (id : U16) : List Byte := [0x06, 0x01] ++ toBe16 id
/-- The payload of load model (R155). -/
def payloadLoadModel (id : U16) : List Byte := [0x07, 0x01] ++ toBe16 id
/-- The payload of upload model (R156). -/
def payloadUploadModel : List Byte := [0x08, 0x01]
/-- The payload of delete model (R157). -/
def payloadDeleteModel (id : U16) : List Byte := [0x0c] ++ toBe16 id ++ [0x00, 0x01]
/-- The payload of empty database (R158). -/
def payloadEmptyDatabase : List Byte := [0x0d]
/-- The payload of verify password (R159). -/
def payloadVerifyPassword (password : U32) : List Byte := [0x13] ++ toBe32 password
/-- The payload of fast search (R160). -/
def payloadFastSearch : List Byte := [0x1b, 0x01, 0x00, 0x00, 0x00, 0xa3]
/-- The payload of template count (R161). -/
def payloadTemplateCount : List Byte := [0x1d]

/-- `n` bytes of the number `w`, most significant first: how a row of spec/opcode_table.json with `8 * n` bits lies in
transmission order (R80). -/
def bytesBE : Nat → Nat → List Byte
  | 0, _ => []
  | n + 1, w => BitVec.ofNat 8 (w / 256 ^ n) :: bytesBE n w

end Sys2Proof.Machine
end

