-- ==== Sys2Proof/WellFormed.lean ====
section
/-! DEFINITION. Which instructions are well formed: the operand limits the spec states. -/

namespace Sys2Proof

/-- The operand limits: a frame row carries the `L` bytes its length field declares (30_encoding.md R70, R77); a
reserved frame's type is none of the four defined ones (R81); the payload of ENCODE has at most 65533 bytes
(40_codec.md R103). Every other row admits every value of its operands. -/
def WellFormed : Instr → Bool
  | .frameCommand _ l body => body.length == l.toNat
  | .frameData _ l body => body.length == l.toNat
  | .frameAck _ l body => body.length == l.toNat
  | .frameEnd _ l body => body.length == l.toNat
  | .frameReserved t _ l body => body.length == l.toNat && !(Machine.definedTypes.contains t)
  | .nop => true
  | .encodeFrame _ _ p => decide (p.length ≤ 65533)
  | .decodeFrame _ => true
  | .beginExchange _ _ _ => true
  | .clrf => true
  | .release => true
  | .op6 => true
  | .op7 => true
  | .rx _ => true
  | .tick => true
  | .reset => true
  | .cmdCaptureImage _ => true
  | .cmdExtractFeatures _ _ => true
  | .cmdRegisterModel _ => true
  | .cmdStoreModel _ _ => true
  | .cmdLoadModel _ _ => true
  | .cmdUploadModel _ => true
  | .cmdDeleteModel _ _ => true
  | .cmdEmptyDatabase _ => true
  | .cmdVerifyPassword _ _ => true
  | .cmdFastSearch _ => true
  | .cmdTemplateCount _ => true

end Sys2Proof
end

