-- ==== Sys2Proof/Decode.lean ====
section
/-! DEFINITION. Decoding what stands on the ports into instructions, total on everything that can be presented, and
the encoder (30_encoding.md; spec/opcode_table.json). -/

namespace Sys2Proof

open Sys2Proof.Machine

/-- Why a presented item holds no event. -/
inductive DecodeReject where
  /-- The strobe of the reset or tick input is 0: no event (the table's row matches bit 1). -/
  | strobeLow
  /-- A chunk of no bytes: no event (R91: `RXS []` is the empty sequence). -/
  | emptyChunk
deriving DecidableEq, Repr

/-- The expected-length mode on the command port: 0 `EXACT`, 1 `ATLEAST` (R90). -/
def decodeMode (m : BitVec 1) : ExpMode := if m = 0 then .exact else .atLeast

/-- The operation on the command port (R86). -/
def decodeCommand (c : CommandLines) : Instr :=
  if c.op = 0 then .nop
  else if c.op = 1 then .encodeFrame c.addr c.ptype c.data
  else if c.op = 2 then .decodeFrame c.data
  else if c.op = 3 then .beginExchange c.deadline c.explen (decodeMode c.expmode)
  else if c.op = 4 then .clrf
  else if c.op = 5 then .release
  else if c.op = 6 then .op6
  else .op7

/-- A command payload, by the CMDPAYLOAD rows of the table (R151 to R161). "The FCC would frame any other payload
equally" (R162): any other payload is the operation `ENCODE a, 1, bytes` itself (log 16). -/
def decodePayload (a : U32) (bytes : List Byte) : Instr :=
  match bytes with
  | [b0] =>
    if b0 = 0x01 then .cmdCaptureImage a
    else if b0 = 0x05 then .cmdRegisterModel a
    else if b0 = 0x0d then .cmdEmptyDatabase a
    else if b0 = 0x1d then .cmdTemplateCount a
    else .encodeFrame a ptCommand bytes
  | [b0, b1] =>
    if b0 = 0x02 then .cmdExtractFeatures a b1
    else if b0 = 0x08 ∧ b1 = 0x01 then .cmdUploadModel a
    else .encodeFrame a ptCommand bytes
  | [b0, b1, b2, b3] =>
    if b0 = 0x06 ∧ b1 = 0x01 then .cmdStoreModel a (word16 b2 b3)
    else if b0 = 0x07 ∧ b1 = 0x01 then .cmdLoadModel a (word16 b2 b3)
    else .encodeFrame a ptCommand bytes
  | [b0, b1, b2, b3, b4] =>
    if b0 = 0x0c ∧ b3 = 0x00 ∧ b4 = 0x01 then .cmdDeleteModel a (word16 b1 b2)
    else if b0 = 0x13 then .cmdVerifyPassword a (word32 b1 b2 b3 b4)
    else .encodeFrame a ptCommand bytes
  | _ => if bytes = payloadFastSearch then .cmdFastSearch a else .encodeFrame a ptCommand bytes

/-- The FRAME row of a packet type; FRAME.RESERVED matches after the other four (R80, R81). -/
def frameOfType (t : Byte) (a : U32) (l : U16) (body : List Byte) : Instr :=
  if t = ptCommand then .frameCommand a l body
  else if t = ptData then .frameData a l body
  else if t = ptAck then .frameAck a l body
  else if t = ptEnd then .frameEnd a l body
  else .frameReserved t a l body

/-- Whether a chunk begins with the start marker, a whole header and the `L` bytes it declares (R70, R78). -/
def startsWithFrame (chunk : List Byte) : Bool :=
  9 ≤ chunk.length && byteAt chunk 0 == 0xEF && byteAt chunk 1 == 0x01 &&
    9 + (be16 chunk 7).toNat ≤ chunk.length

/-- The head of an inbound chunk and what is left of the chunk: a FRAME row where a whole frame stands there, else one
received byte. Either way the event of the step is one `RX`, of the chunk's first byte: a FRAME row puts its other bytes
back (R8, R89; log 5, log 17). -/
def decodeReceive (chunk : List Byte) : Except DecodeReject (Instr × List Byte) :=
  if startsWithFrame chunk then
    let l := be16 chunk 7
    .ok (frameOfType (byteAt chunk 6) (be32 chunk 2) l (slice chunk 9 (9 + l.toNat)), chunk.drop (9 + l.toNat))
  else
    match chunk with
    | [] => .error .emptyChunk
    | b :: rest => .ok (.rx b, rest)

/-- What is left of a chunk stays at the head of what is presented. -/
def leftOver (rest : List Byte) : List Presented := if rest = [] then [] else [.receive rest]

/-- The decoder: the event a presented item holds, and what it leaves presented. -/
def decode (p : Presented) : Except DecodeReject (Instr × List Presented) :=
  match p with
  | .reset strobe => if strobe = 1 then .ok (.reset, []) else .error .strobeLow
  | .command lines => .ok (decodeCommand lines, [])
  | .payload a bytes => .ok (decodePayload a bytes, [])
  | .receive chunk =>
    match decodeReceive chunk with
    | .ok (i, rest) => .ok (i, leftOver rest)
    | .error r => .error r
  | .tick strobe => if strobe = 1 then .ok (.tick, []) else .error .strobeLow

/-- The command port with operation `op` and every operand line 0. -/
def commandOf (op : BitVec 3) : CommandLines :=
  { op := op, addr := 0, ptype := 0, data := [], deadline := 0, explen := 0, expmode := 0 }

/-- `expmode` on the command port (R90). -/
def encodeMode : ExpMode → BitVec 1
  | .exact => 0
  | .atLeast => 1

/-- The encoder: how each instruction stands on its port (R70, R80, R86, R89, R90 and the table's rows). -/
def encode : Instr → Presented
  | .frameCommand a l body => .receive (frameBytes a ptCommand l body)
  | .frameData a l body => .receive (frameBytes a ptData l body)
  | .frameAck a l body => .receive (frameBytes a ptAck l body)
  | .frameEnd a l body => .receive (frameBytes a ptEnd l body)
  | .frameReserved t a l body => .receive (frameBytes a t l body)
  | .nop => .command (commandOf 0)
  | .encodeFrame a t p => .command { commandOf 1 with addr := a, ptype := t, data := p }
  | .decodeFrame raw => .command { commandOf 2 with data := raw }
  | .beginExchange d explen mode =>
    .command { commandOf 3 with deadline := d, explen := explen, expmode := encodeMode mode }
  | .clrf => .command (commandOf 4)
  | .release => .command (commandOf 5)
  | .op6 => .command (commandOf 6)
  | .op7 => .command (commandOf 7)
  | .rx b => .receive [b]
  | .tick => .tick 1
  | .reset => .reset 1
  | .cmdCaptureImage a => .payload a payloadCaptureImage
  | .cmdExtractFeatures a slot => .payload a (payloadExtractFeatures slot)
  | .cmdRegisterModel a => .payload a payloadRegisterModel
  | .cmdStoreModel a id => .payload a (payloadStoreModel id)
  | .cmdLoadModel a id => .payload a (payloadLoadModel id)
  | .cmdUploadModel a => .payload a payloadUploadModel
  | .cmdDeleteModel a id => .payload a (payloadDeleteModel id)
  | .cmdEmptyDatabase a => .payload a payloadEmptyDatabase
  | .cmdVerifyPassword a password => .payload a (payloadVerifyPassword password)
  | .cmdFastSearch a => .payload a payloadFastSearch
  | .cmdTemplateCount a => .payload a payloadTemplateCount

/-- Where a bare word of spec/opcode_table.json is presented. The table's rows stand on different ports and some share
their bits, so an 8-bit word cannot name its port: 0 to 7 are read as operation codes, the two command opcodes above 7
as payloads, every other value as a received byte (log 14). 72 bits are a frame header, followed by the bytes it
declares, all 0; other widths are command payloads from link address 0. -/
def tablePresented (nbits w : Nat) : Presented :=
  if nbits = 8 then
    if w < 8 then .command (commandOf (BitVec.ofNat 3 w))
    else if w = 0x0d ∨ w = 0x1d then .payload 0 (bytesBE 1 w)
    else .receive (bytesBE 1 w)
  else if nbits = 72 then .receive (bytesBE 9 w ++ List.replicate (w % 65536) 0)
  else .payload 0 (bytesBE (nbits / 8) w)

/-- The instruction the decoder reads from a bare word of spec/opcode_table.json (log 14). -/
def decodeTableWord (nbits w : Nat) : Option Instr :=
  match decode (tablePresented nbits w) with
  | .ok (i, _) => some i
  | .error _ => none

end Sys2Proof
end

