-- ==== Sys2Proof/Machine/State.lean ====
section
/-! DEFINITION. The state of the FCC: every element of 10_state.md R23 and R24, the parameters of 00_scope.md R6, what
the environment has presented, and the outputs of the last step. -/

namespace Sys2Proof.Machine

/-- `ST` (R23, R25). Code 3 is never taken (U13). -/
inductive St where
  | idle
  | listening
  | done
deriving DecidableEq, Repr

/-- `RESULT` (R23, R28, R190). Codes 5 to 7 are never taken (U13). -/
inductive Result where
  | none
  | ok
  | timeout
  | badPacket
  | unexpectedReply
deriving DecidableEq, Repr

/-- `ERRINFO` (R23, R29, R191). Code 7 is never taken (U13). -/
inductive ErrInfo where
  | none
  | marker
  | short
  | len
  | checksum
  | notAck
  | plen
deriving DecidableEq, Repr

/-- The sticky flags in `FLAGS` (R33). -/
inductive Flag where
  /-- Bit 0: a byte was dropped because `CNT = BUF_CAP`. -/
  | ovf
  /-- Bit 1: a byte arrived outside `LISTENING`. -/
  | stray
  /-- Bit 2: a `BEGIN` or `RELEASE` was refused in `LISTENING`. -/
  | busyerr
  /-- Bit 3: a reserved operation was presented. -/
  | illop
deriving DecidableEq, Repr

/-- The reasons of a `BadFrame` verdict (40_codec.md R108). -/
inductive BadReason where
  | marker
  | short
  | len
  | checksum
deriving DecidableEq, Repr

/-- What DECODE returns (40_codec.md R107). -/
inductive Verdict where
  /-- `Ok(T, P, csum_ok)`. -/
  | ok (t : Byte) (p : List Byte) (csumOk : Bool)
  /-- `BadFrame(reason)`. -/
  | badFrame (r : BadReason)
deriving DecidableEq, Repr

/-- The outputs of one step, R8's second component (log 3). The MODEL's own: the FCC keeps no copy of them (R36, R105). -/
structure Outputs where
  /-- The frame handed to the transmit port in this step, offset 0 first (R89, R105). -/
  tx : Option (List Byte)
  /-- The verdict on the command port in this step (R86). -/
  verdict : Option Verdict
deriving DecidableEq, Repr

/-- No output. -/
def Outputs.none : Outputs := { tx := .none, verdict := .none }

/-- `BUF` as its defined bytes: (index, byte) pairs, indexes strictly rising; an unlisted index has no value (R24, U8;
log 7). -/
abbrev Memory := List Host.Cell

/-- The state of the FCC. -/
structure State where
  /-- `BUF_CAP` and `VERIFY_CHECKSUM` (R6): the implementation's, changed by no step. -/
  cfg : Config
  /-- `ST`, register 0. -/
  st : St
  /-- `RESULT`, register 1. -/
  result : Result
  /-- `ERRINFO`, register 2. -/
  errinfo : ErrInfo
  /-- `FLAGS`, register 3. -/
  flags : BitVec 4
  /-- `CNT`, register 4: the write position in `BUF`. -/
  cnt : BitVec 17
  /-- `REM`, register 5: ticks to the deadline. -/
  rem : U16
  /-- `EXPLEN`, register 6. -/
  explen : U16
  /-- `EXPMODE`, register 7. -/
  expmode : ExpMode
  /-- `RTYPE`, register 8. -/
  rtype : Byte
  /-- `RPLEN`, register 9. -/
  rplen : U16
  /-- `RSTATUS`, register 10. -/
  rstatus : Byte
  /-- `CSUMOK`, register 11. -/
  csumok : Bool
  /-- `BUF`, the accumulation buffer (R24). -/
  buf : Memory
  /-- What the environment has presented and no step has taken yet, first first. The MODEL's own (log 1). -/
  inputs : List Presented
  /-- The outputs of the last step. The MODEL's own (log 3). -/
  out : Outputs
deriving DecidableEq, Repr

/-- Why the machine stops. Safe: no rule of the spec makes such an access in a reachable state (R24, R142). -/
inductive Fault where
  /-- Raised by a read of `BUF` at an index at or above `BUF_CAP`: no such byte (R50). Safe. -/
  | noSuchBufByte (i : Nat)
  /-- Raised by a read of `BUF` at an index whose byte has no specified value (R24, U8). Safe. -/
  | undefinedBufByte (i : Nat)
deriving DecidableEq, Repr

/-- What the model gives no meaning to. -/
inductive Refusal where
  /-- Raised by `exec` for an instruction without a meaning; no arm raises it. Safe. -/
  | notModelled (mnemonic : String)
  /-- Raised by the host's read of `RPAY(i)` outside the reply payload, never by a step: "a model refuses it" (R32,
  U5). Safe. -/
  | rpayUndefined (i : Nat)
  /-- Raised by the host's read of a register number 13 or above, never by a step (R88, U6). Safe. -/
  | reservedRegister (n : Nat)
deriving DecidableEq, Repr

/-- The machine right after reset (R41, R220): every register at its reset value, no byte of `BUF` defined, nothing
presented, no output. -/
def State.reset : State where
  cfg := Config.implementation
  st := .idle
  result := .none
  errinfo := .none
  flags := 0
  cnt := 0
  rem := 0
  explen := 0
  expmode := .exact
  rtype := 0
  rplen := 0
  rstatus := 0
  csumok := false
  buf := []
  inputs := []
  out := Outputs.none

end Sys2Proof.Machine
end

