-- ==== Sys2Proof/Machine/Flags.lean ====
section
/-! DEFINITION. The four sticky flags of `FLAGS` (10_state.md R33) and the additive checksum (40_codec.md R100). There
are no condition codes (R34). -/

namespace Sys2Proof.Machine

/-- The bit of a flag in `FLAGS` (R33). -/
def Flag.bit : Flag → Nat
  | .ovf => 0
  | .stray => 1
  | .busyerr => 2
  | .illop => 3

/-- `FLAGS` with one flag set (R13: `flag F`). -/
def raiseFlag (f : Flag) (w : BitVec 4) : BitVec 4 := w ||| (1#4 <<< f.bit)

/-- `FLAGS` with one flag cleared. -/
def lowerFlag (f : Flag) (w : BitVec 4) : BitVec 4 := w &&& ~~~(1#4 <<< f.bit)

/-- Whether a flag is set in `FLAGS`. -/
def testFlag (f : Flag) (w : BitVec 4) : Bool := w.getLsbD f.bit

/-- Whether a flag is set in a state. -/
def State.flag (s : State) (f : Flag) : Bool := testFlag f s.flags

/-- `flag F`: the state with one sticky flag set (R13, R33). -/
def State.raise (s : State) (f : Flag) : State := { s with flags := raiseFlag f s.flags }

/-- `CHECKSUM(T, L, P)`: the sum over natural numbers, modulo 65536; the two bytes of `L` are two terms, the marker and
the address none (R100, R102). The carry out of bit 15 sets no flag (R34, R101). -/
def checksum (t : Byte) (l : U16) (p : List Byte) : U16 :=
  BitVec.ofNat 16 (t.toNat + (hi8 l).toNat + (lo8 l).toNat + byteSum p)

end Sys2Proof.Machine
end

