-- ==== Sys2Proof/Machine/Codec.lean ====
section
/-! DEFINITION. The frame codec: the two pure functions ENCODE and DECODE (40_codec.md). -/

namespace Sys2Proof.Machine

/-- The longest payload whose `L` fits in 16 bits (R74, R104). -/
def maxPayload : Nat := 65533

/-- The declared length of a payload: `L = len(P) + 2` (R74). -/
def declaredLength (p : List Byte) : U16 := BitVec.ofNat 16 (p.length + 2)

/-- The frame ENCODE builds (R103). -/
def buildFrame (a : U32) (t : Byte) (p : List Byte) : List Byte :=
  frameBytes a t (declaredLength p) (p ++ toBe16 (checksum t (declaredLength p) p))

/-- ENCODE: the frame, or no output for a payload whose length does not fit (R103, R104). -/
def frameEncode (a : U32) (t : Byte) (p : List Byte) : Option (List Byte) :=
  if p.length ≤ maxPayload then some (buildFrame a t p) else none

/-- DECODE, its tests in the order of R107 and R108; `verify` is `VERIFY_CHECKSUM` (R110). -/
def frameDecode (verify : Bool) (raw : List Byte) : Verdict :=
  if raw.length < 2 ∨ byteAt raw 0 ≠ 0xEF ∨ byteAt raw 1 ≠ 0x01 then .badFrame .marker
  else if raw.length < 9 then .badFrame .short
  else
    let t := byteAt raw 6
    let l := be16 raw 7
    if l.toNat < 2 then .badFrame .len
    else if raw.length < 9 + l.toNat then .badFrame .short
    else
      let p := slice raw 9 (9 + l.toNat - 2)
      let c := be16 raw (9 + l.toNat - 2)
      let csumOk := c == checksum t l p
      if verify && !csumOk then .badFrame .checksum else .ok t p csumOk

end Sys2Proof.Machine
end

