-- ==== Sys2Proof/Machine/Ops.lean ====
section
/-! DEFINITION. The shared operations over the buffer and the registers: reading and writing `BUF`, the read port,
receiving a byte, EXPIRE (the FCC's exception entry, 60_exceptions.md R203) and the two ways out of it (R204), the
outputs, and fetching the next event. -/

namespace Sys2Proof.Machine

/-- What an index of `BUF` reads as: its byte, or no value where it is unlisted (R24, U8; log 7). -/
def Memory.read : Memory → Nat → Option Byte
  | [], _ => none
  | (k, v) :: m, i => if k = i then some v else Memory.read m i

/-- One byte written, the list kept strictly rising (R13: `BufWrite`). -/
def Memory.write : Memory → Nat → Byte → Memory
  | [], i, b => [(i, b)]
  | (k, v) :: m, i, b =>
    if i < k then (i, b) :: (k, v) :: m
    else if i = k then (i, b) :: m
    else (k, v) :: Memory.write m i b

/-- The canonical form of `BUF`: indexes strictly rising. An unlisted index has no value, so no entry can equal it. -/
abbrev Memory.wf (m : Memory) : Prop := m.Pairwise (fun x y => x.1 < y.1)

/-- `BufRead(i)` (R13): one byte of `BUF`, a fault where there is no such byte or it has no value (R24, R50). -/
def State.bufRead (s : State) (i : Nat) : Except Fault Byte :=
  if i < s.cfg.cap then
    match s.buf.read i with
    | some b => .ok b
    | none => .error (.undefinedBufByte i)
  else .error (.noSuchBufByte i)

/-- The `n` bytes of `BUF` from index `i` on. -/
def State.bufFrom (s : State) (i : Nat) : Nat → Except Fault (List Byte)
  | 0 => .ok []
  | n + 1 =>
    match s.bufRead i with
    | .error f => .error f
    | .ok b =>
      match s.bufFrom (i + 1) n with
      | .error f => .error f
      | .ok l => .ok (b :: l)

/-- `BUF[0..CNT)` (R13, R24). -/
def State.received (s : State) : Except Fault (List Byte) := s.bufFrom 0 s.cnt.toNat

/-- `DONE_IRQ` (R35, R200): a level, a function of the state. -/
def State.doneIrq (s : State) : Bool := s.st == .done

/-- `RPAY(i)`, the reply payload window `BUF[9 + i]` (R32). Elsewhere the byte is unspecified and "a model refuses it"
(U5; log 10). -/
def State.rpay (s : State) (i : Nat) : Except Refusal Byte :=
  if (s.result = .ok ∨ s.result = .unexpectedReply) ∧ i < s.rplen.toNat then
    match s.bufRead (9 + i) with
    | .ok b => .ok b
    | .error _ => .error (.rpayUndefined i)
  else .error (.rpayUndefined i)

/-- The codes of `ST` (R23). -/
def St.code : St → Nat
  | .idle => 0
  | .listening => 1
  | .done => 2

/-- The codes of `RESULT` (R23, R190). -/
def Result.code : Result → Nat
  | .none => 0
  | .ok => 1
  | .timeout => 2
  | .badPacket => 3
  | .unexpectedReply => 4

/-- The codes of `ERRINFO` (R23, R191). -/
def ErrInfo.code : ErrInfo → Nat
  | .none => 0
  | .marker => 1
  | .short => 2
  | .len => 3
  | .checksum => 4
  | .notAck => 5
  | .plen => 6

/-- The codes of `EXPMODE` (R23). -/
def modeCode : ExpMode → Nat
  | .exact => 0
  | .atLeast => 1

/-- The read port (R88): the value of register `n` as an unsigned number (log 11); number 12 with an index reads
`RPAY(i)`; 13 and above are reserved (U6; log 10). A read is not an event and changes no state. -/
def State.readPort (s : State) (n i : Nat) : Except Refusal Nat :=
  match n with
  | 0 => .ok s.st.code
  | 1 => .ok s.result.code
  | 2 => .ok s.errinfo.code
  | 3 => .ok s.flags.toNat
  | 4 => .ok s.cnt.toNat
  | 5 => .ok s.rem.toNat
  | 6 => .ok s.explen.toNat
  | 7 => .ok (modeCode s.expmode)
  | 8 => .ok s.rtype.toNat
  | 9 => .ok s.rplen.toNat
  | 10 => .ok s.rstatus.toNat
  | 11 => .ok s.csumok.toNat
  | 12 =>
    match s.rpay i with
    | .ok b => .ok b.toNat
    | .error r => .error r
  | n => .error (.reservedRegister n)

/-- The byte stored at the write position, which advances by 1 (R124, R141). -/
def State.storeByte (s : State) (b : Byte) : State :=
  { s with buf := s.buf.write s.cnt.toNat b, cnt := s.cnt + 1 }

/-- One received byte: appended or dropped with `OVF` in `LISTENING` (R124), dropped with `STRAY` elsewhere (R125). -/
def State.rxByte (s : State) (b : Byte) : State :=
  if s.st = .listening then
    if s.cnt.toNat < s.cfg.cap then s.storeByte b else s.raise .ovf
  else s.raise .stray

/-- The first event of several bytes that arrive in a row: their first byte received. The bytes after it stand first on
the receive port, one `RX` and one step each (R8, R89; log 5). -/
def State.receiveRow (s : State) (bytes : List Byte) : State :=
  match bytes with
  | [] => s
  | b :: later => { s.rxByte b with inputs := leftOver later ++ s.inputs }

/-- The record of the last exchange cleared and the buffer emptied: the part an accepted BEGIN and a RELEASE share
(R122, R133). "Old bytes become undefined" (R122): no byte of `BUF` keeps a value (log 7). -/
def State.clearRecord (s : State) : State :=
  { s with
    cnt := 0, buf := [], result := .none, errinfo := .none
    rtype := 0, rplen := 0, rstatus := 0, csumok := false }

/-- An accepted BEGIN (R122). With `d = 0` the deadline is reached at once. -/
def State.beginAccepted (s : State) (d explen : U16) (mode : ExpMode) : State :=
  let s := { s.clearRecord with flags := lowerFlag .ovf s.flags, explen := explen, expmode := mode }
  if d ≠ 0 then { s with rem := d, st := .listening }
  else { s with rem := 0, st := .done, result := .timeout }

/-- BEGIN: accepted in `IDLE` and `DONE` (R122), refused with `BUSYERR` in `LISTENING` (R123). -/
def State.beginExchange (s : State) (d explen : U16) (mode : ExpMode) : State :=
  if s.st = .listening then s.raise .busyerr else s.beginAccepted d explen mode

/-- The `ERRINFO` value that records a BadFrame reason (R108, R191). -/
def BadReason.errinfo : BadReason → ErrInfo
  | .marker => .marker
  | .short => .short
  | .len => .len
  | .checksum => .checksum

/-- Whether a payload length meets `EXPLEN` and `EXPMODE` (R27, R130). -/
def lengthMeets (explen : U16) (mode : ExpMode) (n : Nat) : Bool :=
  match mode with
  | .exact => n == explen.toNat
  | .atLeast => decide (explen.toNat ≤ n)

/-- EXPIRE on an empty buffer (R130): `TIMEOUT`, the other record registers as they are. -/
def State.latchTimeout (s : State) : State := { s with st := .done, rem := 0, result := .timeout }

/-- EXPIRE on a verdict of DECODE (R130), the tests in the order of R195. -/
def State.latchVerdict (s : State) (v : Verdict) : State :=
  let s := { s with st := .done, rem := 0 }
  match v with
  | .badFrame r => { s with result := .badPacket, errinfo := r.errinfo }
  | .ok t p csumOk =>
    let s := { s with rtype := t, rplen := BitVec.ofNat 16 p.length, csumok := csumOk }
    if t ≠ ptAck then { s with result := .unexpectedReply, errinfo := .notAck }
    else
      match p with
      | [] => { s with result := .unexpectedReply, errinfo := .plen }
      | status :: _ =>
        if lengthMeets s.explen s.expmode p.length then { s with result := .ok, rstatus := status }
        else { s with result := .unexpectedReply, errinfo := .plen }

/-- EXPIRE, the FCC's exception entry (R130, R203): resolves the exchange on `BUF[0..CNT)`. It saves nothing and leaves
`BUF`, `CNT`, `EXPLEN`, `EXPMODE`, `FLAGS` as they were. -/
def State.expire (s : State) : Host.Outcome State Fault Refusal :=
  if s.cnt = 0 then .next s.latchTimeout
  else
    match s.received with
    | .error f => .fault f
    | .ok raw => .next (s.latchVerdict (frameDecode s.cfg.verifyChecksum raw))

/-- RELEASE, the FCC's exception return (R133, R204; the other is an accepted BEGIN). -/
def State.releaseResult (s : State) : State :=
  match s.st with
  | .done => { s.clearRecord with st := .idle, rem := 0, explen := 0, expmode := .exact }
  | .listening => s.raise .busyerr
  | .idle => s

/-- TICK (R126, R127). With `REM` 1 (or 0, which no reachable state has in `LISTENING`) the tick is the deadline
(log 15). -/
def State.tickEvent (s : State) : Host.Outcome State Fault Refusal :=
  if s.st = .listening then
    if 1 < s.rem.toNat then .next { s with rem := s.rem - 1 } else s.expire
  else .next s

/-- RESET (R137, R220): every register at its reset value and no byte of `BUF` defined; the parameters stay, and so
does what the environment has still to present (log 26). -/
def State.resetEvent (s : State) : State := { State.reset with cfg := s.cfg, inputs := s.inputs }

/-- ENCODE on the command port: the frame handed to the transmit port, or no output (R103, R104, R105). -/
def State.transmit (s : State) (a : U32) (t : Byte) (p : List Byte) : State :=
  { s with out := { s.out with tx := frameEncode a t p } }

/-- DECODE on the command port: the verdict on its own operand (R107, R135). -/
def State.answerVerdict (s : State) (raw : List Byte) : State :=
  { s with out := { s.out with verdict := some (frameDecode s.cfg.verifyChecksum raw) } }

/-- The next event and the state it acts on: the first presented item is taken, the outputs of the step before are gone
(log 1, log 3). Where nothing is presented, or the item holds no event, there is no event (log 2). -/
def State.fetch (s : State) : Option Instr × State :=
  match s.inputs with
  | [] => (none, { s with out := Outputs.none })
  | p :: rest =>
    match decode p with
    | .error _ => (none, { s with inputs := rest, out := Outputs.none })
    | .ok (i, left) => (some i, { s with inputs := left ++ rest, out := Outputs.none })

end Sys2Proof.Machine
end

