-- ==== Sys2Proof/Machine/CommandRows.lean ====
section
/-! DEFINITION. The CMDPAYLOAD rows: "A command is sent as one frame of packet type 1" whose payload is the row's bytes,
so each is `ENCODE A, 1, payload` on the command port (42_command_payloads.md R150 to R161; log 6). The FCC attaches no
other meaning to them. -/

namespace Sys2Proof.Machine

/-- CMD.CAPTURE_IMAGE: capture image (R151). -/
def execCmdCaptureImage (a : U32) (s : State) : Host.Outcome State Fault Refusal :=
  .next (s.transmit a ptCommand payloadCaptureImage)

/-- CMD.EXTRACT_FEATURES: extract features (R152). -/
def execCmdExtractFeatures (a : U32) (slot : Byte) (s : State) : Host.Outcome State Fault Refusal :=
  .next (s.transmit a ptCommand (payloadExtractFeatures slot))

/-- CMD.REGISTER_MODEL: register model (R153). -/
def execCmdRegisterModel (a : U32) (s : State) : Host.Outcome State Fault Refusal :=
  .next (s.transmit a ptCommand payloadRegisterModel)

/-- CMD.STORE_MODEL: store model (R154). -/
def execCmdStoreModel (a : U32) (id : U16) (s : State) : Host.Outcome State Fault Refusal :=
  .next (s.transmit a ptCommand (payloadStoreModel id))

/-- CMD.LOAD_MODEL: load model (R155). -/
def execCmdLoadModel (a : U32) (id : U16) (s : State) : Host.Outcome State Fault Refusal :=
  .next (s.transmit a ptCommand (payloadLoadModel id))

/-- CMD.UPLOAD_MODEL: upload model (R156). -/
def execCmdUploadModel (a : U32) (s : State) : Host.Outcome State Fault Refusal :=
  .next (s.transmit a ptCommand payloadUploadModel)

/-- CMD.DELETE_MODEL: delete model (R157). -/
def execCmdDeleteModel (a : U32) (id : U16) (s : State) : Host.Outcome State Fault Refusal :=
  .next (s.transmit a ptCommand (payloadDeleteModel id))

/-- CMD.EMPTY_DATABASE: empty database (R158). -/
def execCmdEmptyDatabase (a : U32) (s : State) : Host.Outcome State Fault Refusal :=
  .next (s.transmit a ptCommand payloadEmptyDatabase)

/-- CMD.VERIFY_PASSWORD: verify password (R159). -/
def execCmdVerifyPassword (a : U32) (password : U32) (s : State) : Host.Outcome State Fault Refusal :=
  .next (s.transmit a ptCommand (payloadVerifyPassword password))

/-- CMD.FAST_SEARCH: fast search (R160). -/
def execCmdFastSearch (a : U32) (s : State) : Host.Outcome State Fault Refusal :=
  .next (s.transmit a ptCommand payloadFastSearch)

/-- CMD.TEMPLATE_COUNT: template count (R161). -/
def execCmdTemplateCount (a : U32) (s : State) : Host.Outcome State Fault Refusal :=
  .next (s.transmit a ptCommand payloadTemplateCount)

end Sys2Proof.Machine
end

