-- ==== Sys2Proof/Machine/EventRows.lean ====
section
/-! DEFINITION. The EVENT rows: a received byte, a tick of the time base, reset. -/

namespace Sys2Proof.Machine

/-- RX b (R124, R125). -/
def execRx (b : Byte) (s : State) : Host.Outcome State Fault Refusal := .next (s.rxByte b)

/-- TICK (R126, R127); it performs EXPIRE at the deadline (R130). -/
def execTick (s : State) : Host.Outcome State Fault Refusal := s.tickEvent

/-- RESET (R137, R220). -/
def execReset (s : State) : Host.Outcome State Fault Refusal := .next s.resetEvent

end Sys2Proof.Machine
end

