-- ==== Sys2Proof/Machine/FrameRows.lean ====
section
/-! DEFINITION. The FRAME rows. A frame acts on the collector by arriving on the receive port: its `9 + L` bytes,
offset 0 first, are as many consecutive `RX` events (30_encoding.md R89, R91). One event is applied in a step
(00_scope.md R8), so a row's meaning is the first of them, its byte `EF` received, and leaves the other `8 + L` bytes
first on the receive port for the next steps (log 5). What the frame is worth is decided by DECODE at the deadline
(R107, R130); as the operand of the DECODE operation it is `execDecode`'s. -/

namespace Sys2Proof.Machine

/-- FRAME.COMMAND: a received frame of type 1; at the deadline `NOT_ACK` (R130). -/
def execFrameCommand (a : U32) (l : U16) (body : List Byte) (s : State) : Host.Outcome State Fault Refusal :=
  .next (s.receiveRow (frameBytes a ptCommand l body))

/-- FRAME.DATA: a received frame of type 2; at the deadline `NOT_ACK` (R130). -/
def execFrameData (a : U32) (l : U16) (body : List Byte) (s : State) : Host.Outcome State Fault Refusal :=
  .next (s.receiveRow (frameBytes a ptData l body))

/-- FRAME.ACK: a received frame of type 7, the only type the collector resolves as `OK` (R130). -/
def execFrameAck (a : U32) (l : U16) (body : List Byte) (s : State) : Host.Outcome State Fault Refusal :=
  .next (s.receiveRow (frameBytes a ptAck l body))

/-- FRAME.END: a received frame of type 8; at the deadline `NOT_ACK` (R130). -/
def execFrameEnd (a : U32) (l : U16) (body : List Byte) (s : State) : Host.Outcome State Fault Refusal :=
  .next (s.receiveRow (frameBytes a ptEnd l body))

/-- FRAME.RESERVED: a received frame of any other type `t`, passed through by DECODE; at the deadline `NOT_ACK`
(R81, R130). -/
def execFrameReserved (t : Byte) (a : U32) (l : U16) (body : List Byte) (s : State) :
    Host.Outcome State Fault Refusal :=
  .next (s.receiveRow (frameBytes a t l body))

end Sys2Proof.Machine
end

