-- ==== Sys2Proof/Machine/OpRows.lean ====
section
/-! DEFINITION. The OP rows: the eight operations of the command port (30_encoding.md R86). -/

namespace Sys2Proof.Machine

/-- NOP: the state after equals the state before (R120). -/
def execNop (s : State) : Host.Outcome State Fault Refusal := .next s

/-- ENCODE A, T, P (R103); with `len(P) > 65533` refused: no output, no state change (R104; log 12). -/
def execEncode (a : U32) (t : Byte) (p : List Byte) (s : State) : Host.Outcome State Fault Refusal :=
  .next (s.transmit a t p)

/-- DECODE raw (R107), on its own operand, not on `BUF` (R135). -/
def execDecode (raw : List Byte) (s : State) : Host.Outcome State Fault Refusal := .next (s.answerVerdict raw)

/-- BEGIN d, explen, expmode (R122, R123). -/
def execBegin (d explen : U16) (mode : ExpMode) (s : State) : Host.Outcome State Fault Refusal :=
  .next (s.beginExchange d explen mode)

/-- CLRF: `FLAGS <- 0`, all four bits, in every state (R134). -/
def execClrf (s : State) : Host.Outcome State Fault Refusal := .next { s with flags := 0 }

/-- RELEASE (R133). -/
def execRelease (s : State) : Host.Outcome State Fault Refusal := .next s.releaseResult

/-- OP6: reserved, sets `ILLOP` (R87, R136). -/
def execOp6 (s : State) : Host.Outcome State Fault Refusal := .next (s.raise .illop)

/-- OP7: reserved, sets `ILLOP` (R87, R136). -/
def execOp7 (s : State) : Host.Outcome State Fault Refusal := .next (s.raise .illop)

end Sys2Proof.Machine
end

