-- ==== Sys2Proof/Machine/Dispatch.lean ====
section
/-! DEFINITION. The dispatch: one arm per constructor of `Instr`, each one direct call of its meaning. -/

namespace Sys2Proof.Machine

def exec (i : Instr) (s : State) : Host.Outcome State Fault Refusal :=
  match i with
  | .frameCommand a l body => Sys2Proof.Machine.execFrameCommand a l body s
  | .frameData a l body => Sys2Proof.Machine.execFrameData a l body s
  | .frameAck a l body => Sys2Proof.Machine.execFrameAck a l body s
  | .frameEnd a l body => Sys2Proof.Machine.execFrameEnd a l body s
  | .frameReserved t a l body => Sys2Proof.Machine.execFrameReserved t a l body s
  | .nop => Sys2Proof.Machine.execNop s
  | .encodeFrame a t p => Sys2Proof.Machine.execEncode a t p s
  | .decodeFrame raw => Sys2Proof.Machine.execDecode raw s
  | .beginExchange d explen mode => Sys2Proof.Machine.execBegin d explen mode s
  | .clrf => Sys2Proof.Machine.execClrf s
  | .release => Sys2Proof.Machine.execRelease s
  | .op6 => Sys2Proof.Machine.execOp6 s
  | .op7 => Sys2Proof.Machine.execOp7 s
  | .rx b => Sys2Proof.Machine.execRx b s
  | .tick => Sys2Proof.Machine.execTick s
  | .reset => Sys2Proof.Machine.execReset s
  | .cmdCaptureImage a => Sys2Proof.Machine.execCmdCaptureImage a s
  | .cmdExtractFeatures a slot => Sys2Proof.Machine.execCmdExtractFeatures a slot s
  | .cmdRegisterModel a => Sys2Proof.Machine.execCmdRegisterModel a s
  | .cmdStoreModel a id => Sys2Proof.Machine.execCmdStoreModel a id s
  | .cmdLoadModel a id => Sys2Proof.Machine.execCmdLoadModel a id s
  | .cmdUploadModel a => Sys2Proof.Machine.execCmdUploadModel a s
  | .cmdDeleteModel a id => Sys2Proof.Machine.execCmdDeleteModel a id s
  | .cmdEmptyDatabase a => Sys2Proof.Machine.execCmdEmptyDatabase a s
  | .cmdVerifyPassword a password => Sys2Proof.Machine.execCmdVerifyPassword a password s
  | .cmdFastSearch a => Sys2Proof.Machine.execCmdFastSearch a s
  | .cmdTemplateCount a => Sys2Proof.Machine.execCmdTemplateCount a s

end Sys2Proof.Machine
end

