-- ==== Sys2Proof/Machine/Step.lean ====
section
/-! DEFINITION. One step: the next presented event is fetched and executed (00_scope.md R8). -/

namespace Sys2Proof.Machine

/-- One step of the FCC: one event a step (R8). Where no event is presented nothing happens (log 2). -/
def step (s : State) : Host.Outcome State Fault Refusal :=
  match s.fetch with
  | (none, s') => .next s'
  | (some i, s') => exec i s'

/-- `s` with the instruction of a bare table word presented next (log 14): the very next step runs it. -/
def State.withFetchWord (s : State) (nbits w : Nat) : State :=
  { s with inputs := tablePresented nbits w :: s.inputs }

end Sys2Proof.Machine
end

