-- ==== Sys2Proof/Machine/HostData.lean ====
section
/-! DEFINITION. Data the FCC carries and never interprets (42_command_payloads.md): the reply each command expects, the
default deadlines, the reply fields the host extracts, the status codes. No meaning of an instruction uses it. -/

namespace Sys2Proof.Machine

/-- The operands `explen`, `expmode` of BEGIN for a command's reply (R165). -/
def expectedReply : Instr → Option (U16 × ExpMode)
  | .cmdCaptureImage _ => some (1, .exact)
  | .cmdExtractFeatures _ _ => some (1, .exact)
  | .cmdRegisterModel _ => some (1, .exact)
  | .cmdStoreModel _ _ => some (1, .exact)
  | .cmdLoadModel _ _ => some (1, .exact)
  | .cmdUploadModel _ => some (1, .atLeast)
  | .cmdDeleteModel _ _ => some (1, .exact)
  | .cmdEmptyDatabase _ => some (1, .exact)
  | .cmdVerifyPassword _ _ => some (1, .exact)
  | .cmdFastSearch _ => some (5, .exact)
  | .cmdTemplateCount _ => some (3, .exact)
  | _ => none

/-- The default deadline of a command in ticks of 1 ms: 1000 for extract features, else 500 (R175; log 27). -/
def defaultDeadline (i : Instr) : Option U16 :=
  match i with
  | .cmdExtractFeatures _ _ => some 1000
  | i => (expectedReply i).map fun _ => 500

/-- Two consecutive bytes of the reply payload as a big-endian number (R166). -/
def State.rpay16 (s : State) (i : Nat) : Except Refusal U16 :=
  match s.rpay i, s.rpay (i + 1) with
  | .ok h, .ok l => .ok (word16 h l)
  | .error r, _ => .error r
  | _, .error r => .error r

/-- `matchId` of a fast search (R166). -/
def State.matchId (s : State) : Except Refusal U16 := s.rpay16 1

/-- `confidence` of a fast search (R166). -/
def State.confidence (s : State) : Except Refusal U16 := s.rpay16 3

/-- `templateCount` of a template count (R166). -/
def State.templateCount (s : State) : Except Refusal U16 := s.rpay16 1

/-- The classification of status bytes (R170). -/
inductive StatusClass where
  | success
  | receiveError
  | noFingerPresent
  | enrollFailure
  | disorderlyImage
  | featureExtractionFailure
  | noMatch
  | notFound
  | combineFailure
  | badLocation
  | libraryReadError
  | uploadError
  | cannotReceiveFurtherData
  | imageUploadError
  | deleteFailure
  | clearFailure
  | invalidImage
  | flashWriteError
  | invalidRegister
  | timeout
  | unknownError
deriving DecidableEq, Repr

/-- The table of R170. -/
def statusTable : List (Byte × StatusClass) :=
  [(0x00, .success), (0x01, .receiveError), (0x02, .noFingerPresent), (0x03, .enrollFailure),
    (0x06, .disorderlyImage), (0x07, .featureExtractionFailure), (0x08, .noMatch), (0x09, .notFound),
    (0x0a, .combineFailure), (0x0b, .badLocation), (0x0c, .libraryReadError)] ++
  [(0x0d, .uploadError), (0x0e, .cannotReceiveFurtherData), (0x0f, .imageUploadError), (0x10, .deleteFailure),
    (0x11, .clearFailure), (0x15, .invalidImage), (0x18, .flashWriteError), (0x1a, .invalidRegister),
    (0xff, .timeout)]

/-- The classification of a status byte: "Any code outside this table maps to a generic 'unknown error'
classification" (R170). The FCC passes the byte through and attaches no meaning to it. -/
def statusClass (b : Byte) : StatusClass :=
  ((statusTable.find? fun e => e.1 == b).map Prod.snd).getD .unknownError

end Sys2Proof.Machine
end

