-- ==== Sys2Proof/Machine/Pseudo.lean ====
section
/-! DEFINITION. Sequences of events: a program in the notation of 30_encoding.md R90, the pseudo-events of R91, and the
order of events that coincide in one clock period (00_scope.md R8, 60_exceptions.md R196). -/

namespace Sys2Proof.Machine

/-- `n` steps, stopping at the first that stops (R8): what is presented decides the events. -/
def runSteps : Nat → State → Host.Outcome State Fault Refusal
  | 0, s => .next s
  | n + 1, s =>
    match step s with
    | .next t => runSteps n t
    | .fault f => .fault f
    | .refused r => .refused r

/-- A sequence of events applied in order, stopping at the first that stops (R8, R90). A received frame stands in such
a sequence as its bytes, `rxs` of them: a FRAME row in it would be its first byte alone (log 5). -/
def runEvents : List Instr → State → Host.Outcome State Fault Refusal
  | [], s => .next s
  | i :: is, s =>
    match exec i s with
    | .next t => runEvents is t
    | .fault f => .fault f
    | .refused r => .refused r

/-- `RXS [b0, ..., bn-1]` (R91). -/
def rxs (bytes : List Byte) : List Instr := bytes.map .rx

/-- The state `RXS bytes` leaves: the bytes received in order (R89, R91). -/
def State.receiveChunk (s : State) (bytes : List Byte) : State := bytes.foldl State.rxByte s

/-- `TICKS n` (R91). -/
def ticks (n : Nat) : List Instr := List.replicate n .tick

/-- `BEGIN d, explen`, short for the `EXACT` form (R91). -/
def beginExact (d explen : U16) : List Instr := [.beginExchange d explen .exact]

/-- `XCHG A, [p...], d, explen, mode`: BEGIN before the command frame is handed over (R91, R226). -/
def xchg (a : U32) (p : List Byte) (d explen : U16) (mode : ExpMode) : List Instr :=
  [.beginExchange d explen mode, .encodeFrame a ptCommand p]

/-- What an implementation sees in one clock period (R8): at most one event on each port. -/
structure ClockPeriod where
  reset : Bool
  op : Option CommandLines
  rx : Option Byte
  tick : Bool
deriving DecidableEq, Repr

/-- The order in which the events of one clock period are applied: `RESET`, the operation, `RX`, `TICK`, and a `RESET`
discards the others (R8, R196). -/
def periodInputs (c : ClockPeriod) : List Presented :=
  if c.reset then [.reset 1]
  else (c.op.map Presented.command).toList ++ (c.rx.map fun b => Presented.receive [b]).toList ++
    (if c.tick then [Presented.tick 1] else [])

end Sys2Proof.Machine
end

