-- ==== Sys2Proof/Safety.lean ====
section
/-! DEFINITION. What holds of every reachable state (10_state.md R28 to R31, R40), and what a run inside the behaviour
ZFM defines is (60_exceptions.md R193). -/

namespace Sys2Proof.Machine

/-- Every record register at 0 / `NONE` (R30, R132). -/
abbrev State.recordClear (s : State) : Prop :=
  s.errinfo = .none ∧ s.rtype = 0 ∧ s.rplen = 0 ∧ s.rstatus = 0 ∧ s.csumok = false

/-- The outcomes that carry a decoded frame (R30). -/
abbrev State.decodedReply (s : State) : Prop := s.result = .ok ∨ s.result = .unexpectedReply

/-- What the values of `ERRINFO` go with (R29), and which record registers read 0 (R30). -/
abbrev State.recordWF (s : State) : Prop :=
  (s.result = .none → s.recordClear) ∧
  (s.result = .timeout → s.recordClear) ∧
  (s.result = .ok → s.errinfo = .none) ∧
  (s.result = .badPacket → (s.errinfo = .marker ∨ s.errinfo = .short ∨ s.errinfo = .len ∨
      (s.errinfo = .checksum ∧ s.cfg.verifyChecksum = true)) ∧
    s.rtype = 0 ∧ s.rplen = 0 ∧ s.rstatus = 0 ∧ s.csumok = false) ∧
  (s.result = .unexpectedReply → (s.errinfo = .notAck ∨ s.errinfo = .plen) ∧ s.rstatus = 0)

/-- The invariants of R40 that speak of one state, with R29, R30 and R31, and that exactly `BUF[0..CNT)` is defined
(R24). R40's first clause is the type of `st`; its tenth speaks of earlier steps. -/
structure State.Inv (s : State) : Prop where
  /-- R24: the defined bytes of `BUF` are those at the indexes below `CNT`. -/
  bufDefined : s.buf.map Prod.fst = List.range s.cnt.toNat
  /-- R40.2. -/
  cntBound : s.cnt.toNat ≤ s.cfg.cap
  /-- R28, R40.3. -/
  resultNone : s.result = .none ↔ s.st ≠ .done
  /-- R40.4. -/
  idleClear : s.st = .idle → s.cnt = 0 ∧ s.rem = 0 ∧ s.explen = 0 ∧ s.expmode = .exact ∧ s.recordClear
  /-- R40.5. -/
  listeningClear : s.st = .listening → 1 ≤ s.rem.toNat ∧ s.result = .none ∧ s.recordClear
  /-- R40.6. -/
  doneRem : s.st = .done → s.rem = 0
  /-- R40.7. -/
  timeoutEmpty : s.result = .timeout ↔ s.st = .done ∧ s.cnt = 0
  /-- R40.8. -/
  frameInBuf : s.decodedReply → 9 + s.rplen.toNat + 2 ≤ s.cnt.toNat
  /-- R40.9. -/
  okReply : s.result = .ok → s.rtype = 7 ∧ 1 ≤ s.rplen.toNat ∧ s.bufRead 9 = .ok s.rstatus ∧
    ((s.expmode = .exact ∧ s.rplen = s.explen) ∨ (s.expmode = .atLeast ∧ s.explen.toNat ≤ s.rplen.toNat))
  /-- R29, R30. -/
  record : s.recordWF
  /-- R31. -/
  verified : s.cfg.verifyChecksum = true → s.decodedReply → s.csumok = true

/-- The record is what EXPIRE makes of the bytes now in `BUF`: resolving the exchange again, from a clear record, gives
the same state (R203: the outcome is a function of exactly the received bytes and of `EXPLEN`, `EXPMODE`,
`VERIFY_CHECKSUM`). -/
def State.RecordAgrees (s : State) : Prop :=
  s.st = .done → s.cnt ≠ 0 →
    ∃ raw, s.received = .ok raw ∧
      s = { s with errinfo := .none, rtype := 0, rplen := 0, rstatus := 0, csumok := false }.latchVerdict
        (frameDecode s.cfg.verifyChecksum raw)

/-- No misuse or loss is recorded: the premise of a claim about the behaviour ZFM defines (R193, U1, U14, U15). -/
abbrev State.noFlag (s : State) : Prop := s.flags = 0

/-- The number of `TICK` events in a sequence of events. -/
def tickCount (es : List Instr) : Nat := es.countP (· == Instr.tick)

/-- The bytes an instruction of the receive port stands for, offset 0 first: a FRAME row's `9 + L`, `RX`'s one (R70,
R89). -/
def rowBytes : Instr → List Byte
  | .frameCommand a l body => frameBytes a ptCommand l body
  | .frameData a l body => frameBytes a ptData l body
  | .frameAck a l body => frameBytes a ptAck l body
  | .frameEnd a l body => frameBytes a ptEnd l body
  | .frameReserved t a l body => frameBytes a t l body
  | .rx b => [b]
  | _ => []

/-- The byte received in the step of an instruction, if one is: one event is applied in a step (R8, R89; log 5). -/
def receivedByte (i : Instr) : Option Byte := (rowBytes i).head?

/-- The bytes of a FRAME row that are left to the steps after its own (log 5). -/
def laterBytes (i : Instr) : List Byte := (rowBytes i).tail

end Sys2Proof.Machine
end

