-- ==== Sys2Proof/Certificates/Slice0/Obligations.lean ====
section
/-! DEFINITION. The statements for the provers, from the numbered rules of spec/. `exec` is one event; `step` takes the
next presented event and runs it. A statement that writes the next state as `{ s with … }` is its own frame: every
register, every flag, every byte of `BUF`, the parameters, the presented items and the outputs it does not name are as
in `s`. -/

open Sys2Proof Sys2Proof.Machine

/-! ## Reset -/

/-- R41, R137, R220: RESET in any state gives every register its reset value, `DONE_IRQ` is 0, and the other events of
its clock period are discarded. -/
def Obligations.ResetGivesResetValues : Prop :=
  (∀ s : State, ∃ t, exec .reset s = .next t ∧
    t.st = .idle ∧ t.result = .none ∧ t.errinfo = .none ∧ t.flags = 0 ∧ t.cnt = 0 ∧ t.rem = 0 ∧ t.explen = 0 ∧
    t.expmode = .exact ∧ t.rtype = 0 ∧ t.rplen = 0 ∧ t.rstatus = 0 ∧ t.csumok = false ∧ t.doneIrq = false) ∧
  (∀ c : ClockPeriod, c.reset = true → periodInputs c = [.reset 1])

/-- R40, R41: the reset state meets the invariant. -/
def Obligations.ResetStateMeetsInvariant : Prop := State.reset.Inv

/-! ## The operations -/

/-- R120: the state after NOP equals the state before, in every state. -/
def Obligations.NopChangesNothing : Prop := ∀ s : State, exec .nop s = .next s

/-- R103: ENCODE of a payload of at most 65533 bytes hands over exactly the bytes of R103's pseudocode and changes no
register. -/
def Obligations.EncodeHandsOverTheFrame : Prop :=
  ∀ (a : U32) (t : Byte) (p : List Byte) (s : State), p.length ≤ 65533 →
    let l := p.length + 2
    let c := (t.toNat + l / 256 + l % 256 + (p.map BitVec.toNat).sum) % 65536
    exec (.encodeFrame a t p) s = .next { s with
      out := { s.out with
        tx := some ([0xEF, 0x01, BitVec.ofNat 8 (a.toNat / 2 ^ 24), BitVec.ofNat 8 (a.toNat / 2 ^ 16),
          BitVec.ofNat 8 (a.toNat / 2 ^ 8), BitVec.ofNat 8 a.toNat, t, BitVec.ofNat 8 (l / 256), BitVec.ofNat 8 l] ++
          p ++ [BitVec.ofNat 8 (c / 256), BitVec.ofNat 8 c]) } }

/-- The model's choice (log 12), from R104 and R13's `refuse`: ENCODE of a longer payload completes with no output and
changes no register. -/
def Obligations.EncodeTooLongHandsOverNothing : Prop :=
  ∀ (a : U32) (t : Byte) (p : List Byte) (s : State), 65533 < p.length →
    exec (.encodeFrame a t p) s = .next { s with out := { s.out with tx := none } }

/-- R107, R108: DECODE's verdict on its operand, test by test in their order, and no register changed. -/
def Obligations.DecodeAnswersByTheOrderedTests : Prop :=
  ∀ (raw : List Byte) (s : State), ∃ v,
    exec (.decodeFrame raw) s = .next { s with out := { s.out with verdict := some v } } ∧
    let l := (byteAt raw 7).toNat * 256 + (byteAt raw 8).toNat
    let p := slice raw 9 (9 + l - 2)
    let embedded := (byteAt raw (9 + l - 2)).toNat * 256 + (byteAt raw (9 + l - 1)).toNat
    let computed := ((byteAt raw 6).toNat + (byteAt raw 7).toNat + (byteAt raw 8).toNat +
      (p.map BitVec.toNat).sum) % 65536
    (raw.take 2 ≠ [0xEF, 0x01] → v = .badFrame .marker) ∧
    (raw.take 2 = [0xEF, 0x01] → raw.length < 9 → v = .badFrame .short) ∧
    (raw.take 2 = [0xEF, 0x01] → 9 ≤ raw.length → l < 2 → v = .badFrame .len) ∧
    (raw.take 2 = [0xEF, 0x01] → 9 ≤ raw.length → 2 ≤ l → raw.length < 9 + l → v = .badFrame .short) ∧
    (raw.take 2 = [0xEF, 0x01] → 2 ≤ l → 9 + l ≤ raw.length → s.cfg.verifyChecksum = true → embedded ≠ computed →
      v = .badFrame .checksum) ∧
    (raw.take 2 = [0xEF, 0x01] → 2 ≤ l → 9 + l ≤ raw.length → (s.cfg.verifyChecksum = false ∨ embedded = computed) →
      v = .ok (byteAt raw 6) p (decide (embedded = computed)))

/-- R122: an accepted BEGIN, in `IDLE` and `DONE`; with `d = 0` it resolves at once as `TIMEOUT`. What `BUF` reads as
afterwards is `BufChangesOnlyAtTheWritePosition`'s. -/
def Obligations.BeginStartsAnExchange : Prop :=
  ∀ (d n : U16) (mode : ExpMode) (s : State), s.st ≠ .listening →
    ∃ t, exec (.beginExchange d n mode) s = .next t ∧ t = { s with
      cnt := 0, buf := t.buf, errinfo := .none, rtype := 0, rplen := 0, rstatus := 0, csumok := false
      flags := s.flags &&& 0b1110#4, explen := n, expmode := mode, rem := d
      st := if d = 0 then .done else .listening
      result := if d = 0 then .timeout else .none }

/-- R123: BEGIN in `LISTENING` is refused: `BUSYERR` and nothing else. -/
def Obligations.BeginInListeningIsRefused : Prop :=
  ∀ (d n : U16) (mode : ExpMode) (s : State), s.st = .listening →
    exec (.beginExchange d n mode) s = .next { s with flags := s.flags ||| 0b0100#4 }

/-- R134: CLRF clears all four flags and nothing else, in every state. -/
def Obligations.ClrfClearsTheFlags : Prop := ∀ s : State, exec .clrf s = .next { s with flags := 0 }

/-- R133: RELEASE in each state. What `BUF` reads as afterwards is `BufChangesOnlyAtTheWritePosition`'s. -/
def Obligations.ReleaseDiscardsTheResult : Prop :=
  ∀ s : State,
    (s.st = .done → ∃ t, exec .release s = .next t ∧ t = { s with
      st := .idle, cnt := 0, buf := t.buf, rem := 0, explen := 0, expmode := .exact, result := .none, errinfo := .none
      rtype := 0, rplen := 0, rstatus := 0, csumok := false }) ∧
    (s.st = .listening → exec .release s = .next { s with flags := s.flags ||| 0b0100#4 }) ∧
    (s.st = .idle → exec .release s = .next s)

/-- R87, R136: the reserved operations set `ILLOP` and change nothing else, in every state. -/
def Obligations.ReservedOperationsSetIllop : Prop :=
  ∀ s : State, exec .op6 s = .next { s with flags := s.flags ||| 0b1000#4 } ∧
    exec .op7 s = .next { s with flags := s.flags ||| 0b1000#4 }

/-! ## The events -/

/-- R124: a byte in `LISTENING` is stored at the write position, which advances by 1; every other index of `BUF` reads
as before; on a full buffer only `OVF` changes. -/
def Obligations.RxAppendsOneByte : Prop :=
  ∀ (b : Byte) (s : State), s.st = .listening →
    (s.cnt.toNat < s.cfg.cap → ∃ t, exec (.rx b) s = .next t ∧ t = { s with buf := t.buf, cnt := t.cnt } ∧
      t.cnt.toNat = s.cnt.toNat + 1 ∧ t.bufRead s.cnt.toNat = .ok b ∧
      ∀ i, i ≠ s.cnt.toNat → t.bufRead i = s.bufRead i) ∧
    (s.cfg.cap ≤ s.cnt.toNat → exec (.rx b) s = .next { s with flags := s.flags ||| 0b0001#4 })

/-- R125: a byte outside `LISTENING` is dropped and sets `STRAY`; `BUF` and `CNT` are unchanged. -/
def Obligations.RxOutsideListeningIsStray : Prop :=
  ∀ (b : Byte) (s : State), s.st ≠ .listening → exec (.rx b) s = .next { s with flags := s.flags ||| 0b0010#4 }

/-- R126: a tick before the deadline counts `REM` down and changes nothing else. -/
def Obligations.TickCountsDown : Prop :=
  ∀ s : State, s.st = .listening → 1 < s.rem.toNat → exec .tick s = .next { s with rem := s.rem - 1 }

/-- R127: TICK in `IDLE` or `DONE` has no effect on any state. -/
def Obligations.TickOutsideListeningDoesNothing : Prop := ∀ s : State, s.st ≠ .listening → exec .tick s = .next s

/-- R130, R195: the tick that finds `REM = 1` resolves the exchange on the received bytes `raw`: empty, decode failure,
packet type, payload length, success, in that order. -/
def Obligations.DeadlineTickResolves : Prop :=
  ∀ (s : State) (raw : List Byte), s.st = .listening → s.rem = 1 → raw.length = s.cnt.toNat →
    (∀ i, (h : i < raw.length) → s.bufRead i = .ok raw[i]) →
    (raw = [] → exec .tick s = .next { s with st := .done, rem := 0, result := .timeout }) ∧
    (raw ≠ [] → ∀ r, frameDecode s.cfg.verifyChecksum raw = .badFrame r →
      exec .tick s = .next { s with st := .done, rem := 0, result := .badPacket, errinfo := r.errinfo }) ∧
    (raw ≠ [] → ∀ t p ck, frameDecode s.cfg.verifyChecksum raw = .ok t p ck → t ≠ 7 →
      exec .tick s = .next { s with
        st := .done, rem := 0, result := .unexpectedReply, errinfo := .notAck
        rtype := t, rplen := BitVec.ofNat 16 p.length, csumok := ck }) ∧
    (raw ≠ [] → ∀ p ck, frameDecode s.cfg.verifyChecksum raw = .ok 7 p ck →
      (p.length < 1 ∨ (s.expmode = .exact ∧ p.length ≠ s.explen.toNat) ∨
        (s.expmode = .atLeast ∧ p.length < s.explen.toNat)) →
      exec .tick s = .next { s with
        st := .done, rem := 0, result := .unexpectedReply, errinfo := .plen
        rtype := 7, rplen := BitVec.ofNat 16 p.length, csumok := ck }) ∧
    (raw ≠ [] → ∀ status p ck, frameDecode s.cfg.verifyChecksum raw = .ok 7 (status :: p) ck →
      ((s.expmode = .exact ∧ p.length + 1 = s.explen.toNat) ∨
        (s.expmode = .atLeast ∧ s.explen.toNat ≤ p.length + 1)) →
      exec .tick s = .next { s with
        st := .done, rem := 0, result := .ok, rstatus := status
        rtype := 7, rplen := BitVec.ofNat 16 (p.length + 1), csumok := ck })

/-! ## Frames on the receive port -/

/-- The model's reading (log 5), from R8, R70, R89 and R124, R125: a FRAME row is its bytes as consecutive `RX` events,
one a step. In the row's own step its first byte `EF` is received, and all the others, offset 1 first, stand first on
the receive port; and as many steps as the row has bytes leave what those `RX` events leave. -/
def Obligations.FrameRowsAreTheirBytesReceived : Prop :=
  (∀ (a : U32) (l : U16) (t : Byte) (body : List Byte) (s : State),
    let receives (i : Instr) (t : Byte) :=
      let later : List Byte := [0x01, BitVec.ofNat 8 (a.toNat / 2 ^ 24), BitVec.ofNat 8 (a.toNat / 2 ^ 16),
        BitVec.ofNat 8 (a.toNat / 2 ^ 8), BitVec.ofNat 8 a.toNat, t, BitVec.ofNat 8 (l.toNat / 256),
        BitVec.ofNat 8 l.toNat] ++ body
      (s.st ≠ .listening → exec i s = .next { s with
        flags := s.flags ||| 0b0010#4, inputs := .receive later :: s.inputs }) ∧
      (s.st = .listening → s.cnt.toNat < s.cfg.cap → ∃ u, exec i s = .next u ∧
        u = { s with buf := u.buf, cnt := u.cnt, inputs := .receive later :: s.inputs } ∧
        u.cnt.toNat = s.cnt.toNat + 1 ∧ u.bufRead s.cnt.toNat = .ok 0xEF ∧
        ∀ j, j ≠ s.cnt.toNat → u.bufRead j = s.bufRead j) ∧
      (s.st = .listening → s.cfg.cap ≤ s.cnt.toNat → exec i s = .next { s with
        flags := s.flags ||| 0b0001#4, inputs := .receive later :: s.inputs })
    receives (.frameCommand a l body) 1 ∧ receives (.frameData a l body) 2 ∧ receives (.frameAck a l body) 7 ∧
    receives (.frameEnd a l body) 8 ∧ receives (.frameReserved t a l body) t) ∧
  (∀ (a : U32) (l : U16) (t : Byte) (body : List Byte) (rest : List Presented) (s : State),
    s.inputs = .receive (frameBytes a t l body) :: rest →
    ∃ u v, runSteps (frameBytes a t l body).length s = .next u ∧ runEvents (rxs (frameBytes a t l body)) s = .next v ∧
      u = { v with inputs := rest, out := Outputs.none })

/-- R8 with R89, R124, R125, on any chunk, whatever frames stand in it (log 5, log 17 say how the model reads those): one
byte is received in a step. After `k` steps the first `k` bytes have been received: those that fit are stored in order
from the write position on, the others are dropped with `OVF`; outside `LISTENING` all are dropped with `STRAY`. After
the whole chunk the next item is first. -/
def Obligations.ReceivedChunkIsStoredInOrder : Prop :=
  ∀ (chunk : List Byte) (rest : List Presented) (s : State) (k : Nat),
    s.inputs = .receive chunk :: rest → 0 < k → k ≤ chunk.length →
    (s.st ≠ .listening → ∃ t, runSteps k s = .next t ∧
      t = { s with flags := s.flags ||| 0b0010#4, inputs := t.inputs, out := Outputs.none } ∧
      (k = chunk.length → t.inputs = rest)) ∧
    (s.st = .listening → s.cnt.toNat ≤ s.cfg.cap → ∃ t, runSteps k s = .next t ∧
      t = { s with buf := t.buf, cnt := t.cnt, flags := t.flags, inputs := t.inputs, out := Outputs.none } ∧
      (k = chunk.length → t.inputs = rest) ∧
      t.cnt.toNat = min s.cfg.cap (s.cnt.toNat + k) ∧
      t.flags = (if s.cfg.cap < s.cnt.toNat + k then s.flags ||| 0b0001#4 else s.flags) ∧
      (∀ j, (h : j < chunk.length) → j < k → s.cnt.toNat + j < s.cfg.cap →
        t.bufRead (s.cnt.toNat + j) = .ok chunk[j]) ∧
      ∀ j, j < s.cnt.toNat ∨ s.cnt.toNat + k ≤ j → t.bufRead j = s.bufRead j)

/-- R130, R230: a whole exchange. From any state outside `LISTENING`, BEGIN, then the bytes of a frame as ENCODE builds
it, of any type and payload that fits the buffer, then any bytes `g` (which may overflow harmlessly), then the `d` ticks
of the deadline: the outcome is decided by the frame alone, and an accepted reply's payload is readable byte by byte. -/
def Obligations.ExchangeDeliversTheFirstFrame : Prop :=
  ∀ (s : State) (d n : U16) (mode : ExpMode) (a : U32) (t : Byte) (p g : List Byte),
    s.st ≠ .listening → d ≠ 0 → 11 + p.length ≤ s.cfg.cap →
    ∃ u, runEvents (.beginExchange d n mode :: (rxs (buildFrame a t p ++ g) ++ ticks d.toNat)) s = .next u ∧
      u.st = .done ∧ u.doneIrq = true ∧ u.rem = 0 ∧ u.rtype = t ∧ u.rplen.toNat = p.length ∧ u.csumok = true ∧
      u.cnt.toNat = min s.cfg.cap (11 + p.length + g.length) ∧
      (t ≠ 7 → u.result = .unexpectedReply ∧ u.errinfo = .notAck ∧ u.rstatus = 0) ∧
      (t = 7 → lengthMeets n mode p.length = false → u.result = .unexpectedReply ∧ u.errinfo = .plen ∧ u.rstatus = 0) ∧
      (t = 7 → p = [] → u.result = .unexpectedReply ∧ u.errinfo = .plen ∧ u.rstatus = 0) ∧
      (∀ b q, t = 7 → p = b :: q → lengthMeets n mode p.length = true →
        u.result = .ok ∧ u.errinfo = .none ∧ u.rstatus = b) ∧
      ∀ i, (h : i < p.length) → u.rpay i = .ok p[i]

/-- R110, R232: an acknowledgment with a status byte and the expected length whose checksum is wrong, at the deadline:
accepted with `CSUMOK = 0` when `VERIFY_CHECKSUM` is false, rejected as `BAD_PACKET`, `CHECKSUM` when it is true. -/
def Obligations.WrongChecksumAtTheDeadline : Prop :=
  ∀ (s : State) (a : U32) (c : U16) (status : Byte) (p g : List Byte),
    let payload := status :: p
    let l : U16 := BitVec.ofNat 16 (payload.length + 2)
    s.st = .listening → s.rem = 1 → payload.length ≤ 65533 →
    s.received = .ok (frameBytes a 7 l (payload ++ toBe16 c ++ g)) → c ≠ checksum 7 l payload →
    lengthMeets s.explen s.expmode payload.length = true →
    ∃ t, exec .tick s = .next t ∧
      (s.cfg.verifyChecksum = false → t = { s with
        st := .done, rem := 0, result := .ok, rtype := 7, rplen := BitVec.ofNat 16 payload.length
        rstatus := status, csumok := false }) ∧
      (s.cfg.verifyChecksum = true → t = { s with
        st := .done, rem := 0, result := .badPacket, errinfo := .checksum })

/-- R231: DECODE looks for the marker at index 0 only: where the received bytes do not begin with `EF 01`, whatever came
after, the exchange resolves as `BAD_PACKET`, `MARKER`. -/
def Obligations.NoResynchronisation : Prop :=
  ∀ (s : State) (raw : List Byte), s.st = .listening → s.rem = 1 → s.received = .ok raw → raw ≠ [] →
    raw.take 2 ≠ [0xEF, 0x01] →
    exec .tick s = .next { s with st := .done, rem := 0, result := .badPacket, errinfo := .marker }

/-! ## The command payloads -/

/-- R151 to R155, R157 to R159: the eight commands whose reply is the status alone: payloads and example frames. That
such a row acts as `ENCODE A, 1, payload` is the model's reading of R150 (log 6); that the expected reply is `1, EXACT`
is R165's. -/
def Obligations.StatusOnlyCommandsSendTheirFrames : Prop :=
  (∀ (a : U32) (slot : Byte) (id : U16) (pw : U32) (s : State),
    let sends (i : Instr) (p : List Byte) := exec i s = exec (.encodeFrame a 1 p) s ∧
      exec i s = .next { s with out := { s.out with tx := some (buildFrame a 1 p) } } ∧ expectedReply i = some (1, .exact)
    sends (.cmdCaptureImage a) [0x01] ∧
    sends (.cmdExtractFeatures a slot) [0x02, slot] ∧
    sends (.cmdRegisterModel a) [0x05] ∧
    sends (.cmdStoreModel a id) [0x06, 0x01, BitVec.ofNat 8 (id.toNat / 256), BitVec.ofNat 8 id.toNat] ∧
    sends (.cmdLoadModel a id) [0x07, 0x01, BitVec.ofNat 8 (id.toNat / 256), BitVec.ofNat 8 id.toNat] ∧
    sends (.cmdDeleteModel a id) [0x0c, BitVec.ofNat 8 (id.toNat / 256), BitVec.ofNat 8 id.toNat, 0x00, 0x01] ∧
    sends (.cmdEmptyDatabase a) [0x0d] ∧
    sends (.cmdVerifyPassword a pw) [0x13, BitVec.ofNat 8 (pw.toNat / 2 ^ 24), BitVec.ofNat 8 (pw.toNat / 2 ^ 16),
      BitVec.ofNat 8 (pw.toNat / 2 ^ 8), BitVec.ofNat 8 pw.toNat]) ∧
  (∀ s : State,
    let frame (i : Instr) (bytes : List Byte) := exec i s = .next { s with out := { s.out with tx := some bytes } }
    frame (.cmdCaptureImage 0xFFFFFFFF) [0xEF, 0x01, 0xFF, 0xFF, 0xFF, 0xFF, 0x01, 0x00, 0x03, 0x01, 0x00, 0x05] ∧
    frame (.cmdExtractFeatures 0xFFFFFFFF 1)
      [0xEF, 0x01, 0xFF, 0xFF, 0xFF, 0xFF, 0x01, 0x00, 0x04, 0x02, 0x01, 0x00, 0x08] ∧
    frame (.cmdExtractFeatures 0xFFFFFFFF 2)
      [0xEF, 0x01, 0xFF, 0xFF, 0xFF, 0xFF, 0x01, 0x00, 0x04, 0x02, 0x02, 0x00, 0x09] ∧
    frame (.cmdRegisterModel 0xFFFFFFFF) [0xEF, 0x01, 0xFF, 0xFF, 0xFF, 0xFF, 0x01, 0x00, 0x03, 0x05, 0x00, 0x09] ∧
    frame (.cmdStoreModel 0xFFFFFFFF 5)
      [0xEF, 0x01, 0xFF, 0xFF, 0xFF, 0xFF, 0x01, 0x00, 0x06, 0x06, 0x01, 0x00, 0x05, 0x00, 0x13] ∧
    frame (.cmdLoadModel 0xFFFFFFFF 5)
      [0xEF, 0x01, 0xFF, 0xFF, 0xFF, 0xFF, 0x01, 0x00, 0x06, 0x07, 0x01, 0x00, 0x05, 0x00, 0x14] ∧
    frame (.cmdDeleteModel 0xFFFFFFFF 5)
      [0xEF, 0x01, 0xFF, 0xFF, 0xFF, 0xFF, 0x01, 0x00, 0x07, 0x0C, 0x00, 0x05, 0x00, 0x01, 0x00, 0x1A] ∧
    frame (.cmdEmptyDatabase 0xFFFFFFFF) [0xEF, 0x01, 0xFF, 0xFF, 0xFF, 0xFF, 0x01, 0x00, 0x03, 0x0D, 0x00, 0x11] ∧
    frame (.cmdVerifyPassword 0xFFFFFFFF 0x12345678)
      [0xEF, 0x01, 0xFF, 0xFF, 0xFF, 0xFF, 0x01, 0x00, 0x07, 0x13, 0x12, 0x34, 0x56, 0x78, 0x01, 0x2F])

/-- R156, R160, R161: the three commands whose reply carries more than the status: payloads and example frames. That
such a row acts as `ENCODE A, 1, payload` is the model's reading of R150 (log 6); the expected replies are R165's. -/
def Obligations.LongReplyCommandsSendTheirFrames : Prop :=
  (∀ (a : U32) (s : State),
    let sends (i : Instr) (p : List Byte) (reply : U16 × ExpMode) := exec i s = exec (.encodeFrame a 1 p) s ∧
      exec i s = .next { s with out := { s.out with tx := some (buildFrame a 1 p) } } ∧ expectedReply i = some reply
    sends (.cmdUploadModel a) [0x08, 0x01] (1, .atLeast) ∧
    sends (.cmdFastSearch a) [0x1b, 0x01, 0x00, 0x00, 0x00, 0xa3] (5, .exact) ∧
    sends (.cmdTemplateCount a) [0x1d] (3, .exact)) ∧
  (∀ s : State,
    let frame (i : Instr) (bytes : List Byte) := exec i s = .next { s with out := { s.out with tx := some bytes } }
    frame (.cmdUploadModel 0xFFFFFFFF)
      [0xEF, 0x01, 0xFF, 0xFF, 0xFF, 0xFF, 0x01, 0x00, 0x04, 0x08, 0x01, 0x00, 0x0E] ∧
    frame (.cmdFastSearch 0xFFFFFFFF)
      [0xEF, 0x01, 0xFF, 0xFF, 0xFF, 0xFF, 0x01, 0x00, 0x08, 0x1B, 0x01, 0x00, 0x00, 0x00, 0xA3, 0x00, 0xC8] ∧
    frame (.cmdTemplateCount 0xFFFFFFFF) [0xEF, 0x01, 0xFF, 0xFF, 0xFF, 0xFF, 0x01, 0x00, 0x03, 0x1D, 0x00, 0x21])

/-! ## The codec -/

/-- R100: the checksum is the sum of its terms modulo 65536, and adding them one by one in 16 bits gives the same. -/
def Obligations.ChecksumIsTheTruncatedSum : Prop :=
  ∀ (t : Byte) (l : U16) (p : List Byte),
    (checksum t l p).toNat = (t.toNat + l.toNat / 256 + l.toNat % 256 + (p.map BitVec.toNat).sum) % 65536 ∧
    checksum t l p =
      (p.map (BitVec.setWidth 16)).foldl (· + ·) (t.setWidth 16 + (hi8 l).setWidth 16 + (lo8 l).setWidth 16)

/-- R101: the order of the payload bytes does not matter, and below 256 payload bytes nothing wraps. -/
def Obligations.ChecksumIgnoresOrderAndWrapsLate : Prop :=
  (∀ (t : Byte) (l : U16) (p q : List Byte), p.Perm q → checksum t l p = checksum t l q) ∧
  (∀ (t : Byte) (p : List Byte), p.length ≤ 255 →
    t.toNat + (p.length + 2) / 256 + (p.length + 2) % 256 + (p.map BitVec.toNat).sum ≤ 65282 ∧
    (checksum t (BitVec.ofNat 16 (p.length + 2)) p).toNat =
      t.toNat + (p.length + 2) / 256 + (p.length + 2) % 256 + (p.map BitVec.toNat).sum)

/-- R111: DECODE of what ENCODE handed over gives back the type and the payload with a matching checksum, for either
value of `VERIFY_CHECKSUM`; the address and trailing bytes make no difference, so DECODE is not injective. -/
def Obligations.DecodeUndoesEncode : Prop :=
  ∀ (a : U32) (t : Byte) (p g : List Byte) (s : State), p.length ≤ 65533 →
    ∃ frame u, exec (.encodeFrame a t p) s = .next u ∧ u.out.tx = some frame ∧
      (∃ w, exec (.decodeFrame frame) u = .next w ∧ w.out.verdict = some (.ok t p true)) ∧
      (∃ w, exec (.decodeFrame (frame ++ g)) u = .next w ∧ w.out.verdict = some (.ok t p true)) ∧
      (∀ a' u', exec (.encodeFrame a' t p) s = .next u' → ∀ frame', u'.out.tx = some frame' →
        ∃ w, exec (.decodeFrame frame') u' = .next w ∧ w.out.verdict = some (.ok t p true))

/-- R106: different operands of ENCODE give different outputs. -/
def Obligations.EncodeIsInjective : Prop :=
  ∀ (a a' : U32) (t t' : Byte) (p p' : List Byte), p.length ≤ 65533 → p'.length ≤ 65533 →
    frameEncode a t p = frameEncode a' t' p' → a = a' ∧ t = t' ∧ p = p'

/-- R109: what DECODE does not check: the address, the packet type, the bytes after the frame, and, with
`VERIFY_CHECKSUM = false`, the checksum. -/
def Obligations.DecodeDoesNotCheck : Prop :=
  (∀ (v : Bool) (a a' : U32) (t : Byte) (l : U16) (body : List Byte),
    frameDecode v (frameBytes a t l body) = frameDecode v (frameBytes a' t l body)) ∧
  (∀ (v : Bool) (f g : List Byte) (t : Byte) (p : List Byte) (ck : Bool),
    frameDecode v f = .ok t p ck → frameDecode v (f ++ g) = .ok t p ck) ∧
  (∀ (v : Bool) (a : U32) (t : Byte) (p g : List Byte) (c : U16), p.length ≤ 65533 →
    let l : U16 := BitVec.ofNat 16 (p.length + 2)
    v = false ∨ c = checksum t l p →
    frameDecode v (frameBytes a t l (p ++ toBe16 c ++ g)) = .ok t p (decide (c = checksum t l p)))

/-- R110: the parameter `VERIFY_CHECKSUM` changes a verdict only where the checksum disagrees. -/
def Obligations.VerifyChecksumOnlyRejectsMismatches : Prop :=
  ∀ raw : List Byte,
    frameDecode false raw ≠ .badFrame .checksum ∧
    (∀ r, frameDecode false raw = .badFrame r → frameDecode true raw = .badFrame r) ∧
    (∀ t p, frameDecode false raw = .ok t p true → frameDecode true raw = .ok t p true) ∧
    (∀ t p, frameDecode false raw = .ok t p false → frameDecode true raw = .badFrame .checksum)

/-! ## What the host reads -/

/-- R88: the read port, register by register, with the codes of R23. That numbers 13 and above are refused is the
model's choice (log 10). -/
def Obligations.ReadPortReadsTheRegisters : Prop :=
  ∀ (s : State) (i : Nat),
    s.readPort 0 i = .ok (match s.st with | .idle => 0 | .listening => 1 | .done => 2) ∧
    s.readPort 1 i = .ok (match s.result with
      | .none => 0 | .ok => 1 | .timeout => 2 | .badPacket => 3 | .unexpectedReply => 4) ∧
    s.readPort 2 i = .ok (match s.errinfo with
      | .none => 0 | .marker => 1 | .short => 2 | .len => 3 | .checksum => 4 | .notAck => 5 | .plen => 6) ∧
    s.readPort 3 i = .ok s.flags.toNat ∧ s.readPort 4 i = .ok s.cnt.toNat ∧ s.readPort 5 i = .ok s.rem.toNat ∧
    s.readPort 6 i = .ok s.explen.toNat ∧
    s.readPort 7 i = .ok (match s.expmode with | .exact => 0 | .atLeast => 1) ∧
    s.readPort 8 i = .ok s.rtype.toNat ∧ s.readPort 9 i = .ok s.rplen.toNat ∧ s.readPort 10 i = .ok s.rstatus.toNat ∧
    s.readPort 11 i = .ok (if s.csumok then 1 else 0) ∧
    (∀ b, s.rpay i = .ok b → s.readPort 12 i = .ok b.toNat) ∧
    (∀ r, s.rpay i = .error r → s.readPort 12 i = .error r) ∧
    ∀ n, 13 ≤ n → s.readPort n i = .error (.reservedRegister n)

/-- R32: the reply payload window in every state of the invariant: payload byte `i` where a frame was decoded and
`i < RPLEN`, refused elsewhere; `RPAY(0) = RSTATUS` when `RESULT = OK`. -/
def Obligations.ReplyWindowReadsThePayload : Prop :=
  ∀ s : State, s.Inv →
    (∀ i, s.decodedReply → i < s.rplen.toNat → ∃ b, s.bufRead (9 + i) = .ok b ∧ s.rpay i = .ok b) ∧
    (s.result = .ok → s.rpay 0 = .ok s.rstatus) ∧
    (∀ i, ¬ s.decodedReply ∨ s.rplen.toNat ≤ i → s.rpay i = .error (.rpayUndefined i))

/-- R166: the host's reply fields after `RESULT = OK`: big-endian combinations of payload bytes. -/
def Obligations.ReplyFieldsAreBigEndian : Prop :=
  ∀ s : State, s.Inv → s.result = .ok →
    s.rpay 0 = .ok s.rstatus ∧
    (3 ≤ s.rplen.toNat → ∃ h l n, s.rpay 1 = .ok h ∧ s.rpay 2 = .ok l ∧ s.matchId = .ok n ∧
      s.templateCount = .ok n ∧ n.toNat = h.toNat * 256 + l.toNat) ∧
    (5 ≤ s.rplen.toNat → ∃ h l n, s.rpay 3 = .ok h ∧ s.rpay 4 = .ok l ∧ s.confidence = .ok n ∧
      n.toNat = h.toNat * 256 + l.toNat)

/-- R170: the status codes; any code outside the table is "unknown error". -/
def Obligations.StatusCodesAreClassified : Prop :=
  statusClass 0x00 = .success ∧ statusClass 0x01 = .receiveError ∧ statusClass 0x02 = .noFingerPresent ∧
  statusClass 0x03 = .enrollFailure ∧ statusClass 0x06 = .disorderlyImage ∧
  statusClass 0x07 = .featureExtractionFailure ∧ statusClass 0x08 = .noMatch ∧ statusClass 0x09 = .notFound ∧
  statusClass 0x0a = .combineFailure ∧ statusClass 0x0b = .badLocation ∧ statusClass 0x0c = .libraryReadError ∧
  statusClass 0x0d = .uploadError ∧ statusClass 0x0e = .cannotReceiveFurtherData ∧
  statusClass 0x0f = .imageUploadError ∧ statusClass 0x10 = .deleteFailure ∧ statusClass 0x11 = .clearFailure ∧
  statusClass 0x15 = .invalidImage ∧ statusClass 0x18 = .flashWriteError ∧ statusClass 0x1a = .invalidRegister ∧
  statusClass 0xff = .timeout ∧
  ∀ b : Byte, b ∈ ([0x04, 0x05, 0x12, 0x13, 0x14, 0x16, 0x17, 0x19] : List Byte) ∨ (0x1b ≤ b.toNat ∧ b.toNat ≤ 0xfe) →
    statusClass b = .unknownError

/-! ## The whole machine -/

/-- R40 with R24 and R29 to R31: every step keeps the invariant, from every state that meets it. -/
def Obligations.EveryStepKeepsTheInvariant : Prop := ∀ s t : State, s.Inv → step s = .next t → t.Inv

/-- R203: every step keeps the record in agreement with the bytes in `BUF`: while `ST = DONE`, the record is what
resolving those bytes again gives. -/
def Obligations.EveryStepKeepsTheRecordTrue : Prop :=
  ∀ s t : State, s.Inv → s.RecordAgrees → step s = .next t → t.RecordAgrees

/-- Every step keeps the canonical form of `BUF`, in every state (log 7 names the form). -/
def Obligations.EveryStepKeepsBufCanonical : Prop := ∀ s t : State, s.buf.wf → step s = .next t → t.buf.wf

/-- R121: every event has a defined step in every state of the invariant: the collector is never stuck. -/
def Obligations.NeverStuck : Prop :=
  (∀ (i : Instr) (s : State), s.Inv → ∃ t, exec i s = .next t) ∧ ∀ s : State, s.Inv → ∃ t, step s = .next t

/-- R140: the transitions of `ST`, all of them; every other pair of state and event leaves `ST` unchanged. -/
def Obligations.StChangesOnlyByTheTable : Prop :=
  ∀ (i : Instr) (s t : State), s.Inv → exec i s = .next t →
    t.st = match i with
      | .beginExchange d _ _ => if s.st = .listening then .listening else if d = 0 then .done else .listening
      | .tick => if s.st = .listening ∧ s.rem = 1 then .done else s.st
      | .release => if s.st = .done then .idle else s.st
      | .reset => .idle
      | _ => s.st

/-- R33, R193: what sets and what clears each sticky flag, over all events. -/
def Obligations.FlagsAreSetAndClearedByTheTable : Prop :=
  ∀ (i : Instr) (s t : State), s.Inv → exec i s = .next t →
    (t.flag .ovf = true ↔ match i with
      | .clrf => False
      | .reset => False
      | .beginExchange _ _ _ => s.st = .listening ∧ s.flag .ovf = true
      | i => s.flag .ovf = true ∨ (s.st = .listening ∧ s.cnt.toNat = s.cfg.cap ∧ receivedByte i ≠ none)) ∧
    (t.flag .stray = true ↔ match i with
      | .clrf => False
      | .reset => False
      | i => s.flag .stray = true ∨ (s.st ≠ .listening ∧ receivedByte i ≠ none)) ∧
    (t.flag .busyerr = true ↔ match i with
      | .clrf => False
      | .reset => False
      | .beginExchange _ _ _ => s.flag .busyerr = true ∨ s.st = .listening
      | .release => s.flag .busyerr = true ∨ s.st = .listening
      | _ => s.flag .busyerr = true) ∧
    (t.flag .illop = true ↔ match i with
      | .clrf => False
      | .reset => False
      | .op6 => True
      | .op7 => True
      | _ => s.flag .illop = true)

/-- R33: "No rule of the FCC reads a flag: they never change any other state or any outcome": the same event from the
same state but for `FLAGS` gives the same state but for `FLAGS`. -/
def Obligations.FlagsInfluenceNothing : Prop :=
  ∀ (i : Instr) (s t : State) (w : BitVec 4), exec i s = .next t →
    ∃ w', exec i { s with flags := w } = .next { t with flags := w' }

/-- R24: "`BUF[i]` for `i >= CNT` is never read by any rule": an event from two states that agree on `BUF[0..CNT)` gives
the same registers and outputs. -/
def Obligations.BufBeyondCntIsNeverRead : Prop :=
  ∀ (i : Instr) (s t : State) (m : Memory), (∀ k, k < s.cnt.toNat → m.read k = s.buf.read k) → exec i s = .next t →
    ∃ m', exec i { s with buf := m } = .next { t with buf := m' }

/-- R204, R57, R132: while `ST = DONE` no event but BEGIN, RELEASE and RESET disturbs the record or `BUF`. -/
def Obligations.ResolvedRecordIsStable : Prop :=
  ∀ (i : Instr) (s t : State), s.st = .done → exec i s = .next t →
    (∀ d n mode, i ≠ .beginExchange d n mode) → i ≠ .release → i ≠ .reset →
    t.st = .done ∧ t.result = s.result ∧ t.errinfo = s.errinfo ∧ t.cnt = s.cnt ∧ t.rem = s.rem ∧
    t.explen = s.explen ∧ t.expmode = s.expmode ∧ t.rtype = s.rtype ∧ t.rplen = s.rplen ∧ t.rstatus = s.rstatus ∧
    t.csumok = s.csumok ∧ (∀ k, t.bufRead k = s.bufRead k) ∧ ∀ k, t.rpay k = s.rpay k

/-- R50, R141: the frame of `BUF` over all events. An event that receives a byte in `LISTENING` stores it at the write
position `CNT`, if at all; every other byte reads as before; an accepted BEGIN, a RELEASE in `DONE` and RESET leave no
byte with a value (log 7). A FRAME row receives its first byte (log 5). -/
def Obligations.BufChangesOnlyAtTheWritePosition : Prop :=
  ∀ (i : Instr) (s t : State), exec i s = .next t →
    let emptied := match i with
      | .beginExchange _ _ _ => s.st ≠ .listening
      | .release => s.st = .done
      | .reset => True
      | _ => False
    (emptied → ∀ k b, t.bufRead k ≠ .ok b) ∧
    (¬ emptied → ∀ k, (s.st ≠ .listening ∨ k ≠ s.cnt.toNat ∨ receivedByte i = none) →
      t.bufRead k = s.bufRead k)

/-- R22: `CNT` advances by 1 per accepted byte, saturates at `BUF_CAP`, and returns to 0 at an accepted BEGIN, at
RELEASE and at RESET; no other event changes it. -/
def Obligations.CntAdvancesAndSaturates : Prop :=
  ∀ (i : Instr) (s t : State), s.Inv → exec i s = .next t →
    t.cnt.toNat = match i with
      | .beginExchange _ _ _ => if s.st = .listening then s.cnt.toNat else 0
      | .release => if s.st = .done then 0 else s.cnt.toNat
      | .reset => 0
      | i => if s.st = .listening ∧ receivedByte i ≠ none then min s.cfg.cap (s.cnt.toNat + 1) else s.cnt.toNat

/-- R26, R208: `REM` is loaded by BEGIN, counts TICK events only while `LISTENING`, and cannot be reloaded, paused or
cancelled during an exchange. -/
def Obligations.RemCountsTicksOnlyWhileListening : Prop :=
  ∀ (i : Instr) (s t : State), s.Inv → exec i s = .next t →
    t.rem.toNat = match i with
      | .beginExchange d _ _ => if s.st = .listening then s.rem.toNat else d.toNat
      | .tick => if s.st = .listening then s.rem.toNat - 1 else s.rem.toNat
      | .reset => 0
      | _ => s.rem.toNat

/-- R27, R23: `EXPLEN` and `EXPMODE` are written by an accepted BEGIN, by RELEASE in `DONE` and by RESET only. That no
event changes the parameters or what is still presented, but for a FRAME row's later bytes, is the model's choice
(log 8, log 26, log 5). -/
def Obligations.ExpectationAndParametersAreKept : Prop :=
  ∀ (i : Instr) (s t : State), exec i s = .next t →
    t.cfg = s.cfg ∧ t.inputs = leftOver (laterBytes i) ++ s.inputs ∧
    (t.explen, t.expmode) = match i with
      | .beginExchange _ n mode => if s.st = .listening then (s.explen, s.expmode) else (n, mode)
      | .release => if s.st = .done then (0, .exact) else (s.explen, s.expmode)
      | .reset => (0, .exact)
      | _ => (s.explen, s.expmode)

/-- R35, R200: `DONE_IRQ` rises in the step that performs EXPIRE or a BEGIN with `d = 0`, falls in the step of a RELEASE
in `DONE`, of a BEGIN with `d != 0` in `DONE`, or of RESET, and changes in no other step. -/
def Obligations.DoneIrqRisesAndFalls : Prop :=
  ∀ (i : Instr) (s t : State), s.Inv → exec i s = .next t →
    (s.doneIrq = false → (t.doneIrq = true ↔
      (i = .tick ∧ s.st = .listening ∧ s.rem = 1) ∨ (∃ n mode, i = .beginExchange 0 n mode ∧ s.st = .idle))) ∧
    (s.doneIrq = true → (t.doneIrq = false ↔
      i = .release ∨ (∃ d n mode, i = .beginExchange d n mode ∧ d ≠ 0) ∨ i = .reset))

/-- R126, R228: an exchange begun with `d >= 1` resolves in the step of the `d`-th TICK after its BEGIN, whatever other
events arrive in between (all but RESET), and not before. -/
def Obligations.ExchangeResolvesExactlyAtTheDeadline : Prop :=
  ∀ (s : State) (d n : U16) (mode : ExpMode) (es : List Instr), s.Inv → s.st ≠ .listening → d ≠ 0 → .reset ∉ es →
    tickCount es < d.toNat →
    ∃ u, runEvents (.beginExchange d n mode :: es) s = .next u ∧
      u.st = .listening ∧ u.result = .none ∧ u.rem.toNat = d.toNat - tickCount es ∧ u.explen = n ∧ u.expmode = mode ∧
      (tickCount es + 1 = d.toNat →
        ∃ t, exec .tick u = .next t ∧ t.st = .done ∧ t.result ≠ .none ∧ t.rem = 0 ∧ t.doneIrq = true)

/-- R131: the timeout law: at the deadline the exchange resolves, as `TIMEOUT` exactly when no byte arrived, and as `OK`
only when the buffer begins with a complete frame of type 7 whose payload length meets the expectation. -/
def Obligations.TimeoutLaw : Prop :=
  ∀ s t : State, s.Inv → s.st = .listening → s.rem = 1 → exec .tick s = .next t →
    t.result ≠ .none ∧ (t.result = .timeout ↔ s.cnt = 0) ∧
    (t.result = .ok → ∃ raw, s.received = .ok raw ∧
      let l := (byteAt raw 7).toNat * 256 + (byteAt raw 8).toNat
      raw.take 2 = [0xEF, 0x01] ∧ 9 ≤ raw.length ∧ 2 ≤ l ∧ 9 + l ≤ raw.length ∧ byteAt raw 6 = 7 ∧ 1 ≤ l - 2 ∧
        ((s.expmode = .exact ∧ l - 2 = s.explen.toNat) ∨ (s.expmode = .atLeast ∧ s.explen.toNat ≤ l - 2)))

/-- R40.10: a step that turns `OVF` on leaves `CNT = BUF_CAP`, in `LISTENING`. -/
def Obligations.OverflowMeansTheBufferIsFull : Prop :=
  ∀ (i : Instr) (s t : State), s.Inv → exec i s = .next t → s.flag .ovf = false → t.flag .ovf = true →
    t.st = .listening ∧ t.cnt.toNat = t.cfg.cap

/-- R8, R196: the events of one clock period are applied in the order `RESET`, operation, `RX`, `TICK`; so a byte that
coincides with the deadline tick is in the buffer that is decoded, and `STRAY` set by a byte survives a CLRF of the same
period. -/
def Obligations.CoincidingEventsKeepTheOrder : Prop :=
  (∀ (op : Option CommandLines) (rx : Option Byte) (tick : Bool),
    periodInputs ⟨true, op, rx, tick⟩ = [.reset 1] ∧
    periodInputs ⟨false, op, rx, tick⟩ = (op.map Presented.command).toList ++
      (rx.map fun b => Presented.receive [b]).toList ++ (if tick then [Presented.tick 1] else [])) ∧
  (∀ (s : State) (b : Byte), s.Inv → s.st = .listening → s.rem = 1 → s.cnt.toNat < s.cfg.cap →
    s.inputs = periodInputs ⟨false, none, some b, true⟩ →
    ∃ u t, step s = .next u ∧ step u = .next t ∧ t.st = .done ∧ t.cnt.toNat = s.cnt.toNat + 1 ∧
      t.bufRead s.cnt.toNat = .ok b) ∧
  (∀ (s : State) (b : Byte), s.st ≠ .listening → s.inputs = periodInputs ⟨false, some (commandOf 4), some b, false⟩ →
    ∃ u t, step s = .next u ∧ step u = .next t ∧ t.flags = 0b0010#4)

/-! ## Decoding and stepping -/

/-- A step takes the first presented item and runs the event decoded from it on the state with that item taken, what it
leaves presented put back in front, and the outputs of the step before gone (R8; log 1, log 3). -/
def Obligations.StepRunsTheDecodedEvent : Prop :=
  ∀ (s : State) (p : Presented) (rest left : List Presented) (i : Instr),
    s.inputs = p :: rest → decode p = .ok (i, left) →
    step s = exec i { s with inputs := left ++ rest, out := Outputs.none }

/-- The model's choice (log 2): with nothing presented, or an item that holds no event, a step changes no register. -/
def Obligations.StepWithoutAnEventIdles : Prop :=
  (∀ s : State, s.inputs = [] → step s = .next { s with out := Outputs.none }) ∧
  (∀ (s : State) (p : Presented) (rest : List Presented) (r : DecodeReject),
    s.inputs = p :: rest → decode p = .error r → step s = .next { s with inputs := rest, out := Outputs.none })

/-- R70, R80, R86: decoding an encoded well-formed instruction gives it back, with nothing left over. -/
def Obligations.DecodeOfEncodeIsTheInstruction : Prop :=
  ∀ i : Instr, WellFormed i = true → decode (encode i) = .ok (i, [])

/-- The model's choice (log 17, log 18), with R78's length from the header: a chunk with a whole frame at its head, told
by the frame's own declared length, is read as that FRAME row, and whatever follows is left for the next step; any other
chunk is read as its first byte, the rest left. -/
def Obligations.FrameIsReadOffTheHeadOfAChunk : Prop :=
  (∀ (i : Instr) (rest : List Byte), WellFormed i = true → rowBytes i ≠ [] → (∀ b, i ≠ .rx b) →
    decode (.receive (rowBytes i ++ rest)) = .ok (i, leftOver rest)) ∧
  (∀ (b : Byte) (rest : List Byte),
    (∀ i tail, WellFormed i = true → (∀ c, i ≠ .rx c) → rowBytes i ≠ [] → b :: rest ≠ rowBytes i ++ tail) →
    decode (.receive (b :: rest)) = .ok (.rx b, leftOver rest))

/-- The decoder on words written out from the spec's encodings: one frame (S1's frame as received, R70), one operation
(R86), one event (R89) and one command payload (R154). -/
def Obligations.WrittenOutWordsDecode : Prop :=
  decode (.receive [0xEF, 0x01, 0xFF, 0xFF, 0xFF, 0xFF, 0x07, 0x00, 0x03, 0x00, 0x00, 0x0A]) =
    .ok (.frameAck 0xFFFFFFFF 3 [0x00, 0x00, 0x0A], []) ∧
  decode (.command { commandOf 0b011#3 with deadline := 500, explen := 1 }) = .ok (.beginExchange 500 1 .exact, []) ∧
  decode (.tick 0b1#1) = .ok (.tick, []) ∧
  decode (.payload 0xFFFFFFFF [0x06, 0x01, 0x00, 0x05]) = .ok (.cmdStoreModel 0xFFFFFFFF 5, [])
end

