-- ==== Sys2Proof/Laws/Codec.lean ====
section
/-! SUPPORT. The byte fields of a frame, the flags, and what ENCODE and DECODE do. -/

namespace Sys2Proof.Machine

theorem hi8_toNat (v : U16) : (hi8 v).toNat = v.toNat / 256 := by
  have := v.isLt
  simp [hi8, Nat.shiftRight_eq_div_pow]
  omega

theorem lo8_toNat (v : U16) : (lo8 v).toNat = v.toNat % 256 := by simp [lo8]

theorem word16_toNat (h l : Byte) : (word16 h l).toNat = h.toNat * 256 + l.toNat := by
  have := h.isLt
  have := l.isLt
  simp only [word16, BitVec.toNat_ofNat]
  omega

theorem word32_toNat (b3 b2 b1 b0 : Byte) :
    (word32 b3 b2 b1 b0).toNat = b3.toNat * 2 ^ 24 + b2.toNat * 2 ^ 16 + b1.toNat * 2 ^ 8 + b0.toNat := by
  have := b3.isLt
  have := b2.isLt
  have := b1.isLt
  have := b0.isLt
  rw [word32, BitVec.toNat_ofNat, Nat.mod_eq_of_lt (by omega)]

@[simp] theorem word16_hi8_lo8 (v : U16) : word16 (hi8 v) (lo8 v) = v := by
  apply BitVec.eq_of_toNat_eq
  rw [word16_toNat, hi8_toNat, lo8_toNat]
  omega

@[simp] theorem hi8_word16 (h l : Byte) : hi8 (word16 h l) = h := by
  apply BitVec.eq_of_toNat_eq
  have := l.isLt
  rw [hi8_toNat, word16_toNat]
  omega

@[simp] theorem lo8_word16 (h l : Byte) : lo8 (word16 h l) = l := by
  apply BitVec.eq_of_toNat_eq
  have := l.isLt
  rw [lo8_toNat, word16_toNat]
  omega

@[simp] theorem toBe16_word16 (h l : Byte) : toBe16 (word16 h l) = [h, l] := by simp [toBe16]

@[simp] theorem toBe32_word32 (b3 b2 b1 b0 : Byte) : toBe32 (word32 b3 b2 b1 b0) = [b3, b2, b1, b0] := by
  have := b3.isLt
  have := b2.isLt
  have := b1.isLt
  have := b0.isLt
  simp only [toBe32, List.cons.injEq, and_true]
  refine ⟨?_, ?_, ?_, ?_⟩ <;> apply BitVec.eq_of_toNat_eq <;>
    rw [BitVec.extractLsb'_toNat, word32_toNat, Nat.shiftRight_eq_div_pow] <;> omega

/-- The four bytes of `to_be32(v)` put together again. -/
@[simp] theorem word32_toBe32 (v : U32) :
    word32 (v.extractLsb' 24 8) (v.extractLsb' 16 8) (v.extractLsb' 8 8) (v.extractLsb' 0 8) = v := by
  have := v.isLt
  apply BitVec.eq_of_toNat_eq
  simp only [BitVec.extractLsb'_toNat, word32_toNat, Nat.shiftRight_eq_div_pow]
  omega

/-- A frame, byte by byte. -/
theorem frameBytes_cons (a : U32) (t : Byte) (l : U16) (body : List Byte) :
    frameBytes a t l body = 0xEF :: 0x01 :: a.extractLsb' 24 8 :: a.extractLsb' 16 8 :: a.extractLsb' 8 8 ::
      a.extractLsb' 0 8 :: t :: hi8 l :: lo8 l :: body := rfl

@[simp] theorem frameBytes_length (a : U32) (t : Byte) (l : U16) (body : List Byte) :
    (frameBytes a t l body).length = body.length + 9 := rfl

theorem frameBytes_ne_nil (a : U32) (t : Byte) (l : U16) (body : List Byte) : frameBytes a t l body ≠ [] := by
  simp [frameBytes_cons]

theorem frameBytes_append (a : U32) (t : Byte) (l : U16) (body rest : List Byte) :
    frameBytes a t l body ++ rest = frameBytes a t l (body ++ rest) := rfl

@[simp] theorem byteAt_zero (b : Byte) (s : List Byte) : byteAt (b :: s) 0 = b := rfl

@[simp] theorem byteAt_succ (b : Byte) (s : List Byte) (i : Nat) : byteAt (b :: s) (i + 1) = byteAt s i := rfl

@[simp] theorem byteAt_frame_marker0 (a : U32) (t : Byte) (l : U16) (body : List Byte) :
    byteAt (frameBytes a t l body) 0 = 0xEF := rfl

@[simp] theorem byteAt_frame_marker1 (a : U32) (t : Byte) (l : U16) (body : List Byte) :
    byteAt (frameBytes a t l body) 1 = 0x01 := rfl

@[simp] theorem byteAt_frame_type (a : U32) (t : Byte) (l : U16) (body : List Byte) :
    byteAt (frameBytes a t l body) 6 = t := rfl

@[simp] theorem be16_frame_length (a : U32) (t : Byte) (l : U16) (body : List Byte) :
    be16 (frameBytes a t l body) 7 = l := word16_hi8_lo8 l

@[simp] theorem be32_frame_address (a : U32) (t : Byte) (l : U16) (body : List Byte) :
    be32 (frameBytes a t l body) 2 = a := word32_toBe32 a

/-- Offsets of a frame from 9 on are offsets of its body. -/
@[simp] theorem slice_frame_body (a : U32) (t : Byte) (l : U16) (body : List Byte) (n : Nat) :
    slice (frameBytes a t l body) 9 (9 + n) = body.take n := by
  simp [slice, frameBytes_cons]

@[simp] theorem drop_frame_body (a : U32) (t : Byte) (l : U16) (body : List Byte) (n : Nat) :
    (frameBytes a t l body).drop (9 + n) = body.drop n := by
  rw [Nat.add_comm]
  rfl

theorem byteAt_frame_body (a : U32) (t : Byte) (l : U16) (body : List Byte) (n : Nat) :
    byteAt (frameBytes a t l body) (9 + n) = byteAt body n := by
  rw [Nat.add_comm]
  rfl

theorem be16_frame_body (a : U32) (t : Byte) (l : U16) (body : List Byte) (n : Nat) :
    be16 (frameBytes a t l body) (9 + n) = be16 body n := by
  unfold be16
  rw [Nat.add_assoc, byteAt_frame_body, byteAt_frame_body]

theorem byteAt_append_right (s r : List Byte) (i : Nat) : byteAt (s ++ r) (s.length + i) = byteAt r i := by
  simp only [byteAt, List.getD_eq_getElem?_getD]
  rw [List.getElem?_append_right (by omega), Nat.add_sub_cancel_left]

theorem byteAt_append_left (s r : List Byte) (i : Nat) (h : i < s.length) : byteAt (s ++ r) i = byteAt s i := by
  simp [byteAt, List.getD_eq_getElem?_getD, List.getElem?_append_left h]

theorem be16_append_left (s r : List Byte) (i : Nat) (h : i + 1 < s.length) : be16 (s ++ r) i = be16 s i := by
  simp [be16, byteAt_append_left s r i (by omega), byteAt_append_left s r (i + 1) h]

theorem slice_append_left (s r : List Byte) (i j : Nat) (hi : i ≤ j) (h : j ≤ s.length) :
    slice (s ++ r) i j = slice s i j := by
  unfold slice
  rw [List.drop_append_of_le_length (by omega), List.take_append_of_le_length (by simp; omega)]

theorem declaredLength_toNat (p : List Byte) (h : p.length ≤ maxPayload) :
    (declaredLength p).toNat = p.length + 2 := by
  unfold maxPayload at h
  simp only [declaredLength, BitVec.toNat_ofNat]
  omega

/-- What DECODE makes of a sequence that begins with the start marker and a whole header (R107 tests 3 to 8). -/
theorem frameDecode_frame (v : Bool) (a : U32) (t : Byte) (l : U16) (body : List Byte) :
    frameDecode v (frameBytes a t l body) =
      if l.toNat < 2 then .badFrame .len
      else if body.length < l.toNat then .badFrame .short
      else if v && !(be16 body (l.toNat - 2) == checksum t l (body.take (l.toNat - 2))) then .badFrame .checksum
      else .ok t (body.take (l.toNat - 2)) (be16 body (l.toNat - 2) == checksum t l (body.take (l.toNat - 2))) := by
  unfold frameDecode
  rw [if_neg (by simp), if_neg (by simp)]
  by_cases h2 : l.toNat < 2
  · simp [h2]
  · have h1 : 9 + l.toNat - 2 = 9 + (l.toNat - 2) := by omega
    have h3 : (frameBytes a t l body).length < 9 + l.toNat ↔ body.length < l.toNat := by simp; omega
    simp only [byteAt_frame_type, be16_frame_length, h2, if_false, h3, h1, slice_frame_body, be16_frame_body]

/-- A sequence that passes DECODE's first two tests begins with a marker and a header: it is a frame's bytes. -/
theorem frameBytes_of_header {raw : List Byte} (h0 : byteAt raw 0 = 0xEF) (h1 : byteAt raw 1 = 0x01)
    (h : 9 ≤ raw.length) : raw = frameBytes (be32 raw 2) (byteAt raw 6) (be16 raw 7) (raw.drop 9) := by
  match raw, h with
  | b0 :: b1 :: b2 :: b3 :: b4 :: b5 :: b6 :: b7 :: b8 :: rest, _ =>
    have e0 : b0 = 0xEF := h0
    have e1 : b1 = 0x01 := h1
    have ea : toBe32 (be32 (b0 :: b1 :: b2 :: b3 :: b4 :: b5 :: b6 :: b7 :: b8 :: rest) 2) = [b2, b3, b4, b5] :=
      toBe32_word32 b2 b3 b4 b5
    have el : toBe16 (be16 (b0 :: b1 :: b2 :: b3 :: b4 :: b5 :: b6 :: b7 :: b8 :: rest) 7) = [b7, b8] :=
      toBe16_word16 b7 b8
    rw [frameBytes, ea, el, e0, e1]
    rfl

@[simp] theorem testFlag_raiseFlag (f g : Flag) (w : BitVec 4) :
    testFlag f (raiseFlag g w) = (f == g || testFlag f w) := by
  cases f <;> cases g <;> revert w <;> decide

@[simp] theorem testFlag_lowerFlag (f g : Flag) (w : BitVec 4) :
    testFlag f (lowerFlag g w) = (!(f == g) && testFlag f w) := by
  cases f <;> cases g <;> revert w <;> decide

@[simp] theorem testFlag_zero (f : Flag) : testFlag f 0 = false := by cases f <;> decide

@[simp] theorem raiseFlag_raiseFlag (f : Flag) (w : BitVec 4) : raiseFlag f (raiseFlag f w) = raiseFlag f w := by
  cases f <;> revert w <;> decide

/-- The flags are their four bits. -/
theorem flags_ext {v w : BitVec 4} (h : ∀ f, testFlag f v = testFlag f w) : v = w := by
  have h0 := h .ovf; have h1 := h .stray; have h2 := h .busyerr; have h3 := h .illop
  revert h0 h1 h2 h3
  clear h
  revert v w
  decide

end Sys2Proof.Machine
end

