-- ==== Sys2Proof/Laws/Decode.lean ====
section
/-! SUPPORT. What the decoder reads from the receive port. -/

namespace Sys2Proof

open Sys2Proof.Machine

/-- A whole frame with bytes after it: the chunk starts with a frame, and that frame and the rest are read from it. -/
theorem decodeReceive_frame (a : U32) (t : Byte) (l : U16) (body rest : List Byte) (h : body.length = l.toNat) :
    decodeReceive (frameBytes a t l body ++ rest) = .ok (frameOfType t a l body, rest) := by
  rw [frameBytes_append]
  unfold decodeReceive
  rw [if_pos]
  · simp only [be16_frame_length, byteAt_frame_type, be32_frame_address, slice_frame_body, drop_frame_body]
    rw [← h, List.take_left, List.drop_left]
  · simp [startsWithFrame]
    omega

/-- One byte alone is one `RX`. -/
theorem decodeReceive_single (b : Byte) : decodeReceive [b] = .ok (.rx b, []) := rfl

/-- A chunk that does not start with a whole frame gives its first byte. -/
theorem decodeReceive_byte (b : Byte) (rest : List Byte) (h : startsWithFrame (b :: rest) = false) :
    decodeReceive (b :: rest) = .ok (.rx b, rest) := by
  unfold decodeReceive
  rw [h]
  rfl

/-- A chunk that starts with a whole frame is that frame's bytes and what follows. -/
theorem startsWithFrame_frame {chunk : List Byte} (h : startsWithFrame chunk = true) :
    ∃ a t l body tail, List.length body = BitVec.toNat l ∧ chunk = frameBytes a t l body ++ tail := by
  simp only [startsWithFrame, Bool.and_eq_true, decide_eq_true_eq, beq_iff_eq] at h
  obtain ⟨⟨⟨h9, h0⟩, h1⟩, hl⟩ := h
  refine ⟨be32 chunk 2, byteAt chunk 6, be16 chunk 7, (chunk.drop 9).take (be16 chunk 7).toNat,
    (chunk.drop 9).drop (be16 chunk 7).toNat, by simp; omega, ?_⟩
  rw [frameBytes_append, List.take_append_drop]
  exact frameBytes_of_header h0 h1 h9

end Sys2Proof
end

