-- ==== Sys2Proof/Laws/Memory.lean ====
section
/-! SUPPORT. The laws of `BUF`: reads after writes, the canonical form, and reading a run of bytes. -/

namespace Sys2Proof.Machine

@[simp] theorem Memory.read_nil (i : Nat) : Memory.read [] i = none := rfl

theorem Memory.read_write_same (m : Memory) (i : Nat) (b : Byte) : (m.write i b).read i = some b := by
  induction m with
  | nil => simp [Memory.write, Memory.read]
  | cons c m ih =>
    obtain ⟨k, v⟩ := c
    simp only [Memory.write]
    split
    · simp [Memory.read]
    · split
      · simp [Memory.read]
      · have h : k ≠ i := by omega
        simp [Memory.read, h, ih]

theorem Memory.read_write_other (m : Memory) (i j : Nat) (b : Byte) (h : j ≠ i) :
    (m.write i b).read j = m.read j := by
  induction m with
  | nil => simp [Memory.write, Memory.read, h.symm]
  | cons c m ih =>
    obtain ⟨k, v⟩ := c
    simp only [Memory.write]
    split
    · simp [Memory.read, h.symm]
    · split
      · next hk => subst hk; simp [Memory.read, h.symm]
      · simp [Memory.read, ih]

/-- The indexes a write leaves listed are the old ones and the written one. -/
theorem Memory.mem_write {m : Memory} {i : Nat} {b : Byte} {c : Host.Cell} (h : c ∈ m.write i b) :
    c.1 = i ∨ c ∈ m := by
  induction m with
  | nil => simp [Memory.write] at h; simp [h]
  | cons d m ih =>
    obtain ⟨k, v⟩ := d
    simp only [Memory.write] at h
    split at h
    · rcases List.mem_cons.1 h with rfl | h'
      · exact .inl rfl
      · exact .inr h'
    · split at h
      · rcases List.mem_cons.1 h with rfl | h'
        · exact .inl rfl
        · exact .inr (List.mem_cons_of_mem _ h')
      · rcases List.mem_cons.1 h with rfl | h'
        · exact .inr (List.mem_cons_self ..)
        · exact (ih h').imp_right (List.mem_cons_of_mem _)

/-- A write keeps the canonical form. -/
theorem Memory.write_wf {m : Memory} (i : Nat) (b : Byte) (h : m.wf) : (m.write i b).wf := by
  induction m with
  | nil => simp [Memory.write, Memory.wf]
  | cons d m ih =>
    obtain ⟨k, v⟩ := d
    obtain ⟨hk, hm⟩ := List.pairwise_cons.1 h
    simp only [Memory.write]
    split
    · next hlt =>
      refine List.pairwise_cons.2 ⟨fun c hc => ?_, h⟩
      rcases List.mem_cons.1 hc with rfl | hc
      · exact hlt
      · exact Nat.lt_trans hlt (hk c hc)
    · split
      · next he => subst he; exact List.pairwise_cons.2 ⟨hk, hm⟩
      · next h1 h2 =>
        refine List.pairwise_cons.2 ⟨fun c hc => ?_, ih hm⟩
        rcases Memory.mem_write hc with hc | hc
        · show k < c.1
          omega
        · exact hk c hc

/-- A write above every listed index goes to the end. -/
theorem Memory.write_above {m : Memory} {i : Nat} (b : Byte) (h : ∀ c ∈ m, c.1 < i) :
    m.write i b = m ++ [(i, b)] := by
  induction m with
  | nil => rfl
  | cons d m ih =>
    obtain ⟨k, v⟩ := d
    have hk : k < i := h (k, v) (List.mem_cons_self ..)
    simp only [Memory.write]
    rw [if_neg (by omega), if_neg (by omega), ih fun c hc => h c (List.mem_cons_of_mem _ hc)]
    rfl

/-- In a memory that lists exactly the indexes from `k` on, an index reads as its entry. -/
theorem Memory.read_of_keys {m : Memory} {k n : Nat} (h : m.map Prod.fst = List.range' k n) (i : Nat) (hi : i < n) :
    m.read (k + i) = (m.map Prod.snd)[i]? := by
  induction m generalizing k n i with
  | nil =>
    have : n = 0 := by simpa using congrArg List.length h.symm
    omega
  | cons d m ih =>
    obtain ⟨j, v⟩ := d
    cases n with
    | zero => simp at h
    | succ n =>
      simp only [List.map_cons, List.range'_succ, List.cons.injEq] at h
      obtain ⟨rfl, h⟩ := h
      cases i with
      | zero => simp [Memory.read]
      | succ i =>
        have hne : ¬ j = j + (i + 1) := by omega
        have := ih h i (by omega)
        rw [show j + (i + 1) = j + 1 + i by omega] at hne ⊢
        simp only [Memory.read, if_neg hne, this, List.map_cons, List.getElem?_cons_succ]

theorem Memory.read_ge {m : Memory} {n : Nat} (h : m.map Prod.fst = List.range n) (i : Nat) (hi : n ≤ i) :
    m.read i = none := by
  have key : ∀ m : Memory, i ∉ m.map Prod.fst → m.read i = none := by
    intro m
    induction m with
    | nil => intro; rfl
    | cons d m ih =>
      intro hm
      simp only [List.map_cons, List.mem_cons, not_or] at hm
      simp only [Memory.read, if_neg (Ne.symm hm.1)]
      exact ih hm.2
  apply key
  rw [h]
  simpa using hi

/-- Reading one byte depends on nothing but the capacity and the byte. -/
theorem State.bufRead_ok {s : State} {i : Nat} {b : Byte} :
    s.bufRead i = .ok b ↔ i < s.cfg.cap ∧ s.buf.read i = some b := by
  unfold State.bufRead
  split
  · cases h : s.buf.read i <;> simp_all
  · simp_all

/-- A run of bytes reads as the list of its bytes. -/
theorem State.bufFrom_ok {s : State} {i n : Nat} {raw : List Byte} :
    s.bufFrom i n = .ok raw ↔ raw.length = n ∧ ∀ k, (h : k < raw.length) → s.bufRead (i + k) = .ok raw[k] := by
  induction n generalizing i raw with
  | zero => cases raw <;> simp [State.bufFrom]
  | succ n ih =>
    simp only [State.bufFrom]
    constructor
    · intro h
      split at h
      · cases h
      · next b hb =>
        split at h
        · cases h
        · next l hl =>
          cases h
          obtain ⟨hlen, hall⟩ := ih.1 hl
          refine ⟨by simp [hlen], fun k hk => ?_⟩
          cases k with
          | zero => simpa using hb
          | succ k =>
            have := hall k (by simpa using hk)
            rw [show i + (k + 1) = i + 1 + k by omega]
            simpa using this
    · rintro ⟨hlen, hall⟩
      cases raw with
      | nil => simp at hlen
      | cons b l =>
        have hb : s.bufRead i = .ok b := hall 0 (Nat.zero_lt_succ _)
        have hl : s.bufFrom (i + 1) n = .ok l := by
          refine ih.2 ⟨by simpa using hlen, fun k hk => ?_⟩
          have := hall (k + 1) (by simpa using hk)
          rw [show i + (k + 1) = i + 1 + k by omega] at this
          simpa using this
        simp [hb, hl]

/-- Where `BUF[0..CNT)` is defined, the received bytes are the listed ones. -/
theorem State.received_eq {s : State} (h : s.buf.map Prod.fst = List.range s.cnt.toNat)
    (hc : s.cnt.toNat ≤ s.cfg.cap) : s.received = .ok (s.buf.map Prod.snd) := by
  have hlen : s.buf.length = s.cnt.toNat := by simpa using congrArg List.length h
  refine State.bufFrom_ok.2 ⟨by simpa using hlen, fun k hk => ?_⟩
  have hk' : k < s.cnt.toNat := by simpa [hlen] using hk
  refine State.bufRead_ok.2 ⟨by omega, ?_⟩
  rw [List.range_eq_range'] at h
  have := Memory.read_of_keys h k hk'
  rw [this, List.getElem?_eq_getElem hk]

theorem State.bufRead_congr {s t : State} (hc : t.cfg = s.cfg) (hb : t.buf = s.buf) (i : Nat) :
    t.bufRead i = s.bufRead i := by
  simp [State.bufRead, hc, hb]

theorem State.bufFrom_congr {s t : State} (hc : t.cfg = s.cfg) (hb : t.buf = s.buf) (i n : Nat) :
    t.bufFrom i n = s.bufFrom i n := by
  induction n generalizing i with
  | zero => rfl
  | succ n ih => simp [State.bufFrom, State.bufRead_congr hc hb, ih]

theorem State.received_congr {s t : State} (hc : t.cfg = s.cfg) (hb : t.buf = s.buf) (hn : t.cnt = s.cnt) :
    t.received = s.received := by
  simp [State.received, hn, State.bufFrom_congr hc hb]

end Sys2Proof.Machine
end

