-- ==== Sys2Proof/Laws/State.lean ====
section
/-! SUPPORT. What each named update of the state leaves in each field, one lemma a field. -/

namespace Sys2Proof.Machine

variable (s : State)

/-! `raise` -/

@[simp] theorem State.raise_cfg (f : Flag) : (s.raise f).cfg = s.cfg := rfl
@[simp] theorem State.raise_st (f : Flag) : (s.raise f).st = s.st := rfl
@[simp] theorem State.raise_result (f : Flag) : (s.raise f).result = s.result := rfl
@[simp] theorem State.raise_errinfo (f : Flag) : (s.raise f).errinfo = s.errinfo := rfl
@[simp] theorem State.raise_flags (f : Flag) : (s.raise f).flags = raiseFlag f s.flags := rfl
@[simp] theorem State.raise_cnt (f : Flag) : (s.raise f).cnt = s.cnt := rfl
@[simp] theorem State.raise_rem (f : Flag) : (s.raise f).rem = s.rem := rfl
@[simp] theorem State.raise_explen (f : Flag) : (s.raise f).explen = s.explen := rfl
@[simp] theorem State.raise_expmode (f : Flag) : (s.raise f).expmode = s.expmode := rfl
@[simp] theorem State.raise_rtype (f : Flag) : (s.raise f).rtype = s.rtype := rfl
@[simp] theorem State.raise_rplen (f : Flag) : (s.raise f).rplen = s.rplen := rfl
@[simp] theorem State.raise_rstatus (f : Flag) : (s.raise f).rstatus = s.rstatus := rfl
@[simp] theorem State.raise_csumok (f : Flag) : (s.raise f).csumok = s.csumok := rfl
@[simp] theorem State.raise_buf (f : Flag) : (s.raise f).buf = s.buf := rfl
@[simp] theorem State.raise_inputs (f : Flag) : (s.raise f).inputs = s.inputs := rfl
@[simp] theorem State.raise_out (f : Flag) : (s.raise f).out = s.out := rfl

/-! `storeByte` -/

@[simp] theorem State.storeByte_cfg (b : Byte) : (s.storeByte b).cfg = s.cfg := rfl
@[simp] theorem State.storeByte_st (b : Byte) : (s.storeByte b).st = s.st := rfl
@[simp] theorem State.storeByte_result (b : Byte) : (s.storeByte b).result = s.result := rfl
@[simp] theorem State.storeByte_errinfo (b : Byte) : (s.storeByte b).errinfo = s.errinfo := rfl
@[simp] theorem State.storeByte_flags (b : Byte) : (s.storeByte b).flags = s.flags := rfl
@[simp] theorem State.storeByte_cnt (b : Byte) : (s.storeByte b).cnt = s.cnt + 1 := rfl
@[simp] theorem State.storeByte_rem (b : Byte) : (s.storeByte b).rem = s.rem := rfl
@[simp] theorem State.storeByte_explen (b : Byte) : (s.storeByte b).explen = s.explen := rfl
@[simp] theorem State.storeByte_expmode (b : Byte) : (s.storeByte b).expmode = s.expmode := rfl
@[simp] theorem State.storeByte_rtype (b : Byte) : (s.storeByte b).rtype = s.rtype := rfl
@[simp] theorem State.storeByte_rplen (b : Byte) : (s.storeByte b).rplen = s.rplen := rfl
@[simp] theorem State.storeByte_rstatus (b : Byte) : (s.storeByte b).rstatus = s.rstatus := rfl
@[simp] theorem State.storeByte_csumok (b : Byte) : (s.storeByte b).csumok = s.csumok := rfl
@[simp] theorem State.storeByte_buf (b : Byte) : (s.storeByte b).buf = s.buf.write s.cnt.toNat b := rfl
@[simp] theorem State.storeByte_inputs (b : Byte) : (s.storeByte b).inputs = s.inputs := rfl
@[simp] theorem State.storeByte_out (b : Byte) : (s.storeByte b).out = s.out := rfl

/-! `clearRecord` -/

@[simp] theorem State.clearRecord_cfg : (s.clearRecord).cfg = s.cfg := rfl
@[simp] theorem State.clearRecord_st : (s.clearRecord).st = s.st := rfl
@[simp] theorem State.clearRecord_result : (s.clearRecord).result = .none := rfl
@[simp] theorem State.clearRecord_errinfo : (s.clearRecord).errinfo = .none := rfl
@[simp] theorem State.clearRecord_flags : (s.clearRecord).flags = s.flags := rfl
@[simp] theorem State.clearRecord_cnt : (s.clearRecord).cnt = 0 := rfl
@[simp] theorem State.clearRecord_rem : (s.clearRecord).rem = s.rem := rfl
@[simp] theorem State.clearRecord_explen : (s.clearRecord).explen = s.explen := rfl
@[simp] theorem State.clearRecord_expmode : (s.clearRecord).expmode = s.expmode := rfl
@[simp] theorem State.clearRecord_rtype : (s.clearRecord).rtype = 0 := rfl
@[simp] theorem State.clearRecord_rplen : (s.clearRecord).rplen = 0 := rfl
@[simp] theorem State.clearRecord_rstatus : (s.clearRecord).rstatus = 0 := rfl
@[simp] theorem State.clearRecord_csumok : (s.clearRecord).csumok = false := rfl
@[simp] theorem State.clearRecord_buf : (s.clearRecord).buf = [] := rfl
@[simp] theorem State.clearRecord_inputs : (s.clearRecord).inputs = s.inputs := rfl
@[simp] theorem State.clearRecord_out : (s.clearRecord).out = s.out := rfl

/-! `latchTimeout` -/

@[simp] theorem State.latchTimeout_cfg : (s.latchTimeout).cfg = s.cfg := rfl
@[simp] theorem State.latchTimeout_st : (s.latchTimeout).st = .done := rfl
@[simp] theorem State.latchTimeout_result : (s.latchTimeout).result = .timeout := rfl
@[simp] theorem State.latchTimeout_errinfo : (s.latchTimeout).errinfo = s.errinfo := rfl
@[simp] theorem State.latchTimeout_flags : (s.latchTimeout).flags = s.flags := rfl
@[simp] theorem State.latchTimeout_cnt : (s.latchTimeout).cnt = s.cnt := rfl
@[simp] theorem State.latchTimeout_rem : (s.latchTimeout).rem = 0 := rfl
@[simp] theorem State.latchTimeout_explen : (s.latchTimeout).explen = s.explen := rfl
@[simp] theorem State.latchTimeout_expmode : (s.latchTimeout).expmode = s.expmode := rfl
@[simp] theorem State.latchTimeout_rtype : (s.latchTimeout).rtype = s.rtype := rfl
@[simp] theorem State.latchTimeout_rplen : (s.latchTimeout).rplen = s.rplen := rfl
@[simp] theorem State.latchTimeout_rstatus : (s.latchTimeout).rstatus = s.rstatus := rfl
@[simp] theorem State.latchTimeout_csumok : (s.latchTimeout).csumok = s.csumok := rfl
@[simp] theorem State.latchTimeout_buf : (s.latchTimeout).buf = s.buf := rfl
@[simp] theorem State.latchTimeout_inputs : (s.latchTimeout).inputs = s.inputs := rfl
@[simp] theorem State.latchTimeout_out : (s.latchTimeout).out = s.out := rfl

/-! `transmit` -/

@[simp] theorem State.transmit_cfg (a : U32) (t : Byte) (p : List Byte) : (s.transmit a t p).cfg = s.cfg := rfl
@[simp] theorem State.transmit_st (a : U32) (t : Byte) (p : List Byte) : (s.transmit a t p).st = s.st := rfl
@[simp] theorem State.transmit_result (a : U32) (t : Byte) (p : List Byte) : (s.transmit a t p).result = s.result := rfl
@[simp] theorem State.transmit_errinfo (a : U32) (t : Byte) (p : List Byte) : (s.transmit a t p).errinfo = s.errinfo := rfl
@[simp] theorem State.transmit_flags (a : U32) (t : Byte) (p : List Byte) : (s.transmit a t p).flags = s.flags := rfl
@[simp] theorem State.transmit_cnt (a : U32) (t : Byte) (p : List Byte) : (s.transmit a t p).cnt = s.cnt := rfl
@[simp] theorem State.transmit_rem (a : U32) (t : Byte) (p : List Byte) : (s.transmit a t p).rem = s.rem := rfl
@[simp] theorem State.transmit_explen (a : U32) (t : Byte) (p : List Byte) : (s.transmit a t p).explen = s.explen := rfl
@[simp] theorem State.transmit_expmode (a : U32) (t : Byte) (p : List Byte) : (s.transmit a t p).expmode = s.expmode := rfl
@[simp] theorem State.transmit_rtype (a : U32) (t : Byte) (p : List Byte) : (s.transmit a t p).rtype = s.rtype := rfl
@[simp] theorem State.transmit_rplen (a : U32) (t : Byte) (p : List Byte) : (s.transmit a t p).rplen = s.rplen := rfl
@[simp] theorem State.transmit_rstatus (a : U32) (t : Byte) (p : List Byte) : (s.transmit a t p).rstatus = s.rstatus := rfl
@[simp] theorem State.transmit_csumok (a : U32) (t : Byte) (p : List Byte) : (s.transmit a t p).csumok = s.csumok := rfl
@[simp] theorem State.transmit_buf (a : U32) (t : Byte) (p : List Byte) : (s.transmit a t p).buf = s.buf := rfl
@[simp] theorem State.transmit_inputs (a : U32) (t : Byte) (p : List Byte) : (s.transmit a t p).inputs = s.inputs := rfl
@[simp] theorem State.transmit_out (a : U32) (t : Byte) (p : List Byte) : (s.transmit a t p).out = { s.out with tx := frameEncode a t p } := rfl

/-! `answerVerdict` -/

@[simp] theorem State.answerVerdict_cfg (raw : List Byte) : (s.answerVerdict raw).cfg = s.cfg := rfl
@[simp] theorem State.answerVerdict_st (raw : List Byte) : (s.answerVerdict raw).st = s.st := rfl
@[simp] theorem State.answerVerdict_result (raw : List Byte) : (s.answerVerdict raw).result = s.result := rfl
@[simp] theorem State.answerVerdict_errinfo (raw : List Byte) : (s.answerVerdict raw).errinfo = s.errinfo := rfl
@[simp] theorem State.answerVerdict_flags (raw : List Byte) : (s.answerVerdict raw).flags = s.flags := rfl
@[simp] theorem State.answerVerdict_cnt (raw : List Byte) : (s.answerVerdict raw).cnt = s.cnt := rfl
@[simp] theorem State.answerVerdict_rem (raw : List Byte) : (s.answerVerdict raw).rem = s.rem := rfl
@[simp] theorem State.answerVerdict_explen (raw : List Byte) : (s.answerVerdict raw).explen = s.explen := rfl
@[simp] theorem State.answerVerdict_expmode (raw : List Byte) : (s.answerVerdict raw).expmode = s.expmode := rfl
@[simp] theorem State.answerVerdict_rtype (raw : List Byte) : (s.answerVerdict raw).rtype = s.rtype := rfl
@[simp] theorem State.answerVerdict_rplen (raw : List Byte) : (s.answerVerdict raw).rplen = s.rplen := rfl
@[simp] theorem State.answerVerdict_rstatus (raw : List Byte) : (s.answerVerdict raw).rstatus = s.rstatus := rfl
@[simp] theorem State.answerVerdict_csumok (raw : List Byte) : (s.answerVerdict raw).csumok = s.csumok := rfl
@[simp] theorem State.answerVerdict_buf (raw : List Byte) : (s.answerVerdict raw).buf = s.buf := rfl
@[simp] theorem State.answerVerdict_inputs (raw : List Byte) : (s.answerVerdict raw).inputs = s.inputs := rfl
@[simp] theorem State.answerVerdict_out (raw : List Byte) : (s.answerVerdict raw).out = { s.out with verdict := some (frameDecode s.cfg.verifyChecksum raw) } := rfl

/-! `resetEvent` -/

@[simp] theorem State.resetEvent_cfg : (s.resetEvent).cfg = s.cfg := rfl
@[simp] theorem State.resetEvent_st : (s.resetEvent).st = .idle := rfl
@[simp] theorem State.resetEvent_result : (s.resetEvent).result = .none := rfl
@[simp] theorem State.resetEvent_errinfo : (s.resetEvent).errinfo = .none := rfl
@[simp] theorem State.resetEvent_flags : (s.resetEvent).flags = 0 := rfl
@[simp] theorem State.resetEvent_cnt : (s.resetEvent).cnt = 0 := rfl
@[simp] theorem State.resetEvent_rem : (s.resetEvent).rem = 0 := rfl
@[simp] theorem State.resetEvent_explen : (s.resetEvent).explen = 0 := rfl
@[simp] theorem State.resetEvent_expmode : (s.resetEvent).expmode = .exact := rfl
@[simp] theorem State.resetEvent_rtype : (s.resetEvent).rtype = 0 := rfl
@[simp] theorem State.resetEvent_rplen : (s.resetEvent).rplen = 0 := rfl
@[simp] theorem State.resetEvent_rstatus : (s.resetEvent).rstatus = 0 := rfl
@[simp] theorem State.resetEvent_csumok : (s.resetEvent).csumok = false := rfl
@[simp] theorem State.resetEvent_buf : (s.resetEvent).buf = [] := rfl
@[simp] theorem State.resetEvent_inputs : (s.resetEvent).inputs = s.inputs := rfl
@[simp] theorem State.resetEvent_out : (s.resetEvent).out = Outputs.none := rfl

end Sys2Proof.Machine
end

