-- ==== Sys2Proof/Laws/Ops.lean ====
section
/-! SUPPORT. What each shared operation can do, said once: receiving bytes, BEGIN, RELEASE, EXPIRE, TICK. -/

namespace Sys2Proof

/-- R6: `BUF_CAP` is at least 12. -/
theorem Config.le_cap (c : Config) : 12 ≤ c.cap := c.bufCap.2.1

/-- R6: `BUF_CAP` is at most 65544. -/
theorem Config.cap_le (c : Config) : c.cap ≤ 65544 := c.bufCap.2.2

end Sys2Proof

namespace Sys2Proof.Machine

/-- Bytes written at consecutive indexes. -/
def Memory.writeRun : Memory → Nat → List Byte → Memory
  | m, _, [] => m
  | m, i, b :: bs => Memory.writeRun (m.write i b) (i + 1) bs

theorem Memory.writeRun_wf {m : Memory} (i : Nat) (bs : List Byte) (h : m.wf) : (m.writeRun i bs).wf := by
  induction bs generalizing m i with
  | nil => exact h
  | cons b bs ih => exact ih _ (Memory.write_wf i b h)

theorem Memory.read_writeRun_outside (m : Memory) (i j : Nat) (bs : List Byte) (h : j < i ∨ i + bs.length ≤ j) :
    (m.writeRun i bs).read j = m.read j := by
  induction bs generalizing m i with
  | nil => rfl
  | cons b bs ih =>
    simp only [List.length_cons] at h
    rw [Memory.writeRun, ih _ _ (by omega), Memory.read_write_other _ _ _ _ (by omega)]

theorem Memory.read_writeRun_inside (m : Memory) (i k : Nat) (bs : List Byte) (h : k < bs.length) :
    (m.writeRun i bs).read (i + k) = bs[k]? := by
  induction bs generalizing m i k with
  | nil => simp at h
  | cons b bs ih =>
    rw [Memory.writeRun]
    cases k with
    | zero => rw [Memory.read_writeRun_outside _ _ _ _ (by omega), Nat.add_zero, Memory.read_write_same]; rfl
    | succ k =>
      rw [show i + (k + 1) = i + 1 + k by omega, ih _ _ _ (by simpa using h)]
      rfl

/-- Writing a run above every listed index appends it. -/
theorem Memory.writeRun_above {m : Memory} {n : Nat} (bs : List Byte) (h : m.map Prod.fst = List.range n) :
    (m.writeRun n bs).map Prod.fst = List.range (n + bs.length) ∧
      (m.writeRun n bs).map Prod.snd = m.map Prod.snd ++ bs := by
  induction bs generalizing m n with
  | nil => simp [Memory.writeRun, h]
  | cons b bs ih =>
    have hlt : ∀ c ∈ m, c.1 < n := by
      intro c hc
      have : c.1 ∈ m.map Prod.fst := List.mem_map_of_mem hc
      rw [h] at this
      simpa using this
    have hk : (m.write n b).map Prod.fst = List.range (n + 1) := by
      rw [Memory.write_above b hlt, List.range_succ, List.map_append, h]
      rfl
    obtain ⟨h1, h2⟩ := ih hk
    rw [Memory.writeRun]
    refine ⟨by rw [h1, List.length_cons]; congr 1; omega, ?_⟩
    rw [h2, Memory.write_above b hlt, List.map_append]
    simp

@[simp] theorem State.receiveChunk_nil (s : State) : s.receiveChunk [] = s := rfl

theorem State.receiveChunk_cons (s : State) (b : Byte) (bs : List Byte) :
    s.receiveChunk (b :: bs) = (s.rxByte b).receiveChunk bs := rfl

theorem State.receiveChunk_append (s : State) (bs cs : List Byte) :
    s.receiveChunk (bs ++ cs) = (s.receiveChunk bs).receiveChunk cs := by
  simp [State.receiveChunk, List.foldl_append]

/-- One received byte, all it can do (R124, R125). -/
theorem State.rxByte_cases (s : State) (b : Byte) :
    (s.st ≠ .listening ∧ s.rxByte b = s.raise .stray) ∨
    (s.st = .listening ∧ s.cnt.toNat < s.cfg.cap ∧ s.rxByte b = s.storeByte b) ∨
    (s.st = .listening ∧ s.cfg.cap ≤ s.cnt.toNat ∧ s.rxByte b = s.raise .ovf) := by
  unfold State.rxByte
  by_cases h : s.st = .listening
  · by_cases hc : s.cnt.toNat < s.cfg.cap
    · simp [h, hc]
    · exact .inr (.inr ⟨h, by omega, by simp [h, hc]⟩)
  · simp [h]

/-- A write position below the capacity does not wrap when it advances (R22, R142). -/
theorem State.storeByte_cnt_toNat {s : State} (b : Byte) (h : s.cnt.toNat < s.cfg.cap) :
    (s.storeByte b).cnt.toNat = s.cnt.toNat + 1 := by
  have := s.cfg.cap_le
  rw [State.storeByte_cnt, BitVec.toNat_add, show (1 : BitVec 17).toNat = 1 from rfl]
  omega

/-- A chunk outside `LISTENING`: dropped, `STRAY` set (R125). -/
theorem State.receiveChunk_stray {s : State} (h : s.st ≠ .listening) {bs : List Byte} (hb : bs ≠ []) :
    s.receiveChunk bs = s.raise .stray := by
  have one : ∀ (s : State) b, s.st ≠ .listening → s.rxByte b = s.raise .stray := fun s b h => by
    simp [State.rxByte, h]
  have idem : ∀ (bs : List Byte) (s : State), s.st ≠ .listening → (s.raise .stray).receiveChunk bs = s.raise .stray := by
    intro bs
    induction bs with
    | nil => intros; rfl
    | cons b bs ih =>
      intro s h
      rw [State.receiveChunk_cons, one _ _ (by simpa using h), ih _ (by simpa using h)]
      simp [State.raise]
  cases bs with
  | nil => exact absurd rfl hb
  | cons b bs => rw [State.receiveChunk_cons, one _ _ h, idem _ _ h]

/-- A chunk on a full buffer: dropped, `OVF` set (R124). -/
theorem State.receiveChunk_full {s : State} (h : s.st = .listening) (hc : s.cfg.cap ≤ s.cnt.toNat)
    {bs : List Byte} (hb : bs ≠ []) : s.receiveChunk bs = s.raise .ovf := by
  have one : ∀ (s : State) b, s.st = .listening → s.cfg.cap ≤ s.cnt.toNat → s.rxByte b = s.raise .ovf :=
    fun s b h hc => by simp [State.rxByte, h]; omega
  have idem : ∀ (bs : List Byte) (s : State), s.st = .listening → s.cfg.cap ≤ s.cnt.toNat →
      (s.raise .ovf).receiveChunk bs = s.raise .ovf := by
    intro bs
    induction bs with
    | nil => intros; rfl
    | cons b bs ih =>
      intro s h hc
      rw [State.receiveChunk_cons, one _ _ (by simpa using h) (by simpa using hc), ih _ (by simpa using h) (by simpa using hc)]
      simp [State.raise]
  cases bs with
  | nil => exact absurd rfl hb
  | cons b bs => rw [State.receiveChunk_cons, one _ _ h hc, idem _ _ h hc]

/-- A chunk in `LISTENING`, all it does (R124): the bytes that fit are stored in order, `CNT` advances by their number,
and `OVF` is set where one did not fit. -/
theorem State.receiveChunk_listening {s : State} (h : s.st = .listening) (hc : s.cnt.toNat ≤ s.cfg.cap)
    (bs : List Byte) :
    s.receiveChunk bs =
      { s with
        buf := s.buf.writeRun s.cnt.toNat (bs.take (s.cfg.cap - s.cnt.toNat))
        cnt := BitVec.ofNat 17 (min s.cfg.cap (s.cnt.toNat + bs.length))
        flags := if s.cfg.cap < s.cnt.toNat + bs.length then raiseFlag .ovf s.flags else s.flags } := by
  induction bs generalizing s with
  | nil =>
    rw [if_neg (by simpa using hc)]
    simp [Memory.writeRun, Nat.min_eq_right hc]
  | cons b bs ih =>
    by_cases hlt : s.cnt.toNat < s.cfg.cap
    · have hs : s.rxByte b = s.storeByte b := by simp [State.rxByte, h, hlt]
      have hn := State.storeByte_cnt_toNat b hlt
      rw [State.receiveChunk_cons, hs, ih (by simpa using h) (by rw [hn]; simpa using hlt)]
      have e1 : s.cfg.cap - s.cnt.toNat = (s.cfg.cap - (s.cnt.toNat + 1)) + 1 := by omega
      simp only [hn, State.storeByte_cfg, State.storeByte_buf, State.storeByte_flags, List.length_cons, e1,
        List.take_succ_cons, Memory.writeRun, show s.cnt.toNat + 1 + bs.length = s.cnt.toNat + (bs.length + 1) by omega]
      rfl
    · have he : s.cfg.cap = s.cnt.toNat := by omega
      rw [State.receiveChunk_full h (by omega) (by simp)]
      have e1 : s.cfg.cap - s.cnt.toNat = 0 := by omega
      have e2 : min s.cfg.cap (s.cnt.toNat + (b :: bs).length) = s.cnt.toNat := by omega
      rw [e1, e2, List.take_zero, if_pos (by simp only [List.length_cons]; omega)]
      simp [Memory.writeRun, State.raise]

/-- Receiving bytes touches nothing but `BUF`, `CNT` and `FLAGS`. -/
theorem State.receiveChunk_frame (s : State) (bs : List Byte) :
    ∃ m c w, s.receiveChunk bs = { s with buf := m, cnt := c, flags := w } := by
  induction bs generalizing s with
  | nil => exact ⟨_, _, _, rfl⟩
  | cons b bs ih =>
    rw [State.receiveChunk_cons]
    obtain ⟨m, c, w, h⟩ := ih (s.rxByte b)
    rw [h]
    rcases State.rxByte_cases s b with ⟨-, e⟩ | ⟨-, -, e⟩ | ⟨-, -, e⟩ <;> rw [e] <;> exact ⟨m, c, w, rfl⟩

/-- Receiving bytes keeps the canonical form of `BUF`. -/
theorem State.receiveChunk_wf {s : State} (bs : List Byte) (h : s.buf.wf) : (s.receiveChunk bs).buf.wf := by
  induction bs generalizing s with
  | nil => exact h
  | cons b bs ih =>
    rw [State.receiveChunk_cons]
    apply ih
    rcases State.rxByte_cases s b with ⟨-, e⟩ | ⟨-, -, e⟩ | ⟨-, -, e⟩ <;> rw [e]
    · exact h
    · exact Memory.write_wf _ _ h
    · exact h

/-- EXPIRE, all it can do (R130). -/
theorem State.expire_cases (s : State) :
    (s.cnt = 0 ∧ s.expire = .next s.latchTimeout) ∨
    (s.cnt ≠ 0 ∧ ∃ raw, s.received = .ok raw ∧
      s.expire = .next (s.latchVerdict (frameDecode s.cfg.verifyChecksum raw))) ∨
    (s.cnt ≠ 0 ∧ ∃ f, s.received = .error f ∧ s.expire = .fault f) := by
  unfold State.expire
  by_cases h : s.cnt = 0
  · exact .inl ⟨h, if_pos h⟩
  · rw [if_neg h]
    cases hr : s.received with
    | error f => exact .inr (.inr ⟨h, f, rfl, rfl⟩)
    | ok raw => exact .inr (.inl ⟨h, raw, rfl, rfl⟩)

/-- TICK, all it can do (R126, R127). -/
theorem State.tickEvent_cases (s : State) :
    (s.st ≠ .listening ∧ s.tickEvent = .next s) ∨
    (s.st = .listening ∧ 1 < s.rem.toNat ∧ s.tickEvent = .next { s with rem := s.rem - 1 }) ∨
    (s.st = .listening ∧ s.rem.toNat ≤ 1 ∧ s.tickEvent = s.expire) := by
  unfold State.tickEvent
  by_cases h : s.st = .listening
  · by_cases hr : 1 < s.rem.toNat
    · simp [h, hr]
    · exact .inr (.inr ⟨h, by omega, by simp [h, hr]⟩)
  · simp [h]

/-- The outcomes EXPIRE latches on a verdict, each with what it writes (R130, R195). -/
theorem State.latchVerdict_cases (s : State) (v : Verdict) :
    (∃ r, v = .badFrame r ∧
      s.latchVerdict v = { s with st := .done, rem := 0, result := .badPacket, errinfo := r.errinfo }) ∨
    (∃ t p ck, v = .ok t p ck ∧ t ≠ ptAck ∧
      s.latchVerdict v = { s with
        st := .done, rem := 0, result := .unexpectedReply, errinfo := .notAck
        rtype := t, rplen := BitVec.ofNat 16 p.length, csumok := ck }) ∨
    (∃ p ck, v = .ok ptAck p ck ∧ (p = [] ∨ lengthMeets s.explen s.expmode p.length = false) ∧
      s.latchVerdict v = { s with
        st := .done, rem := 0, result := .unexpectedReply, errinfo := .plen
        rtype := ptAck, rplen := BitVec.ofNat 16 p.length, csumok := ck }) ∨
    (∃ status p ck, v = .ok ptAck (status :: p) ck ∧ lengthMeets s.explen s.expmode (p.length + 1) = true ∧
      s.latchVerdict v = { s with
        st := .done, rem := 0, result := .ok, rstatus := status
        rtype := ptAck, rplen := BitVec.ofNat 16 (p.length + 1), csumok := ck }) := by
  cases v with
  | badFrame r => exact .inl ⟨r, rfl, rfl⟩
  | ok t p ck =>
    by_cases ht : t = ptAck
    · subst ht
      cases p with
      | nil => exact .inr (.inr (.inl ⟨[], ck, rfl, .inl rfl, by simp [State.latchVerdict]⟩))
      | cons b p =>
        cases hl : lengthMeets s.explen s.expmode (p.length + 1) with
        | true => exact .inr (.inr (.inr ⟨b, p, ck, rfl, hl, by simp [State.latchVerdict, hl]⟩))
        | false =>
          exact .inr (.inr (.inl ⟨b :: p, ck, rfl, .inr (by simpa using hl), by simp [State.latchVerdict, hl]⟩))
    · exact .inr (.inl ⟨t, p, ck, rfl, ht, by simp [State.latchVerdict, ht]⟩)

/-- RELEASE, all it can do (R133). -/
theorem State.releaseResult_cases (s : State) :
    (s.st = .done ∧ s.releaseResult = { s.clearRecord with st := .idle, rem := 0, explen := 0, expmode := .exact }) ∨
    (s.st = .listening ∧ s.releaseResult = s.raise .busyerr) ∨ (s.st = .idle ∧ s.releaseResult = s) := by
  unfold State.releaseResult
  cases h : s.st <;> simp

/-- BEGIN, all it can do (R122, R123). -/
theorem State.beginExchange_cases (s : State) (d n : U16) (mode : ExpMode) :
    (s.st = .listening ∧ s.beginExchange d n mode = s.raise .busyerr) ∨
    (s.st ≠ .listening ∧ d ≠ 0 ∧ s.beginExchange d n mode =
      { s.clearRecord with
        flags := lowerFlag .ovf s.flags, explen := n, expmode := mode, rem := d, st := .listening }) ∨
    (s.st ≠ .listening ∧ d = 0 ∧ s.beginExchange d n mode =
      { s.clearRecord with
        flags := lowerFlag .ovf s.flags, explen := n, expmode := mode
        rem := 0, st := .done, result := .timeout }) := by
  unfold State.beginExchange State.beginAccepted
  by_cases h : s.st = .listening
  · simp [h]
  · by_cases hd : d = 0
    · exact .inr (.inr ⟨h, hd, by simp [h, hd]⟩)
    · exact .inr (.inl ⟨h, hd, by rw [if_neg h, if_pos hd]⟩)

/-- What DECODE's success says of the sequence (R107): a whole frame stands at its head. -/
theorem frameDecode_ok {v : Bool} {raw : List Byte} {t : Byte} {p : List Byte} {ck : Bool}
    (h : frameDecode v raw = .ok t p ck) :
    9 ≤ raw.length ∧ byteAt raw 0 = 0xEF ∧ byteAt raw 1 = 0x01 ∧ t = byteAt raw 6 ∧
      (be16 raw 7).toNat = p.length + 2 ∧ 9 + p.length + 2 ≤ raw.length ∧ p = slice raw 9 (9 + p.length) ∧
      ck = (be16 raw (9 + p.length) == checksum t (be16 raw 7) p) ∧ (v = true → ck = true) := by
  unfold frameDecode at h
  split at h
  · cases h
  next h0 =>
  split at h
  · cases h
  next h1 =>
  simp only [not_or, Decidable.not_not, not_lt] at h0 h1
  dsimp only at h
  split at h
  · cases h
  next h2 =>
  split at h
  · cases h
  next h3 =>
  split at h
  · cases h
  next h4 =>
  simp only [Verdict.ok.injEq] at h
  obtain ⟨rfl, rfl, rfl⟩ := h
  have hlen : (slice raw 9 (9 + (be16 raw 7).toNat - 2)).length = (be16 raw 7).toNat - 2 := by
    simp [slice]; omega
  have e : 9 + (be16 raw 7).toNat - 2 = 9 + ((be16 raw 7).toNat - 2) := by omega
  refine ⟨h1, h0.2.1, h0.2.2, rfl, by rw [hlen]; omega, by rw [hlen]; omega, by rw [hlen, ← e], ?_, ?_⟩
  · rw [hlen, ← e]
  · intro hv
    simpa [hv] using h4

/-- Fetching, all it can do (R8; log 1, log 2). -/
theorem State.fetch_cases (s : State) :
    (s.inputs = [] ∧ s.fetch = (none, { s with out := Outputs.none })) ∨
    (∃ p rest r, s.inputs = p :: rest ∧ decode p = .error r ∧
      s.fetch = (none, { s with inputs := rest, out := Outputs.none })) ∨
    (∃ p rest i left, s.inputs = p :: rest ∧ decode p = .ok (i, left) ∧
      s.fetch = (some i, { s with inputs := left ++ rest, out := Outputs.none })) := by
  unfold State.fetch
  cases hi : s.inputs with
  | nil => exact .inl ⟨rfl, rfl⟩
  | cons p rest =>
    cases hd : decode p with
    | error r => exact .inr (.inl ⟨p, rest, r, rfl, hd, by simp [hd]⟩)
    | ok q => exact .inr (.inr ⟨p, rest, q.1, q.2, rfl, by simp [hd], by simp [hd]⟩)

end Sys2Proof.Machine
end

