-- ==== Sys2Proof/Laws/Events.lean ====
section
/-! SUPPORT. What the shared operations over events do: a chunk, a tick, EXPIRE, and sequences of events; and the
numbers behind the flag word, the checksum and the big-endian reads. -/

namespace Sys2Proof.Machine

theorem raiseFlag_ovf (w : BitVec 4) : raiseFlag .ovf w = w ||| 0b0001#4 := by revert w; decide

theorem raiseFlag_stray (w : BitVec 4) : raiseFlag .stray w = w ||| 0b0010#4 := by revert w; decide

theorem raiseFlag_busyerr (w : BitVec 4) : raiseFlag .busyerr w = w ||| 0b0100#4 := by revert w; decide

theorem raiseFlag_illop (w : BitVec 4) : raiseFlag .illop w = w ||| 0b1000#4 := by revert w; decide

theorem lowerFlag_ovf (w : BitVec 4) : lowerFlag .ovf w = w &&& 0b1110#4 := by revert w; decide

theorem be16_toNat (raw : List Byte) (i : Nat) :
    (be16 raw i).toNat = (byteAt raw i).toNat * 256 + (byteAt raw (i + 1)).toNat := word16_toNat _ _

theorem byteSum_eq_sum (p : List Byte) : byteSum p = (p.map BitVec.toNat).sum := by
  induction p with
  | nil => rfl
  | cons b p ih => simp [byteSum, ih]

/-- An instruction of the receive port is one `RX`, and leaves its later bytes first on the port. -/
theorem exec_received {i : Instr} {b : Byte} (s : State) (h : receivedByte i = some b) :
    exec i s = .next { s.rxByte b with inputs := leftOver (laterBytes i) ++ s.inputs } := by
  cases i <;> simp only [receivedByte, rowBytes, frameBytes_cons, List.head?_cons, Option.some.injEq, List.head?_nil,
    reduceCtorEq] at h <;> subst h <;> try rfl
  show Host.Outcome.next _ = Host.Outcome.next _
  rcases s.rxByte_cases _ with ⟨-, e⟩ | ⟨-, -, e⟩ | ⟨-, -, e⟩ <;> rw [e] <;> rfl

theorem rowBytes_frameOfType (t : Byte) (a : U32) (l : U16) (body : List Byte) :
    rowBytes (frameOfType t a l body) = frameBytes a t l body := by
  unfold frameOfType
  split
  · next h => rw [h]; rfl
  split
  · next h => rw [h]; rfl
  split
  · next h => rw [h]; rfl
  split
  · next h => rw [h]; rfl
  · rfl

/-- Receiving a byte does not touch what is presented. -/
@[simp] theorem State.rxByte_inputs (s : State) (b : Byte) : (s.rxByte b).inputs = s.inputs := by
  rcases s.rxByte_cases b with ⟨-, e⟩ | ⟨-, -, e⟩ | ⟨-, -, e⟩ <;> rw [e] <;> rfl

/-- Receiving a byte does not read what is presented or was put out. -/
theorem State.rxByte_io (s : State) (b : Byte) (w : List Presented) (o : Outputs) :
    { s with inputs := w, out := o }.rxByte b = { s.rxByte b with inputs := w, out := o } := by
  unfold State.rxByte
  dsimp only
  split
  · split <;> rfl
  · rfl

/-- What a chunk may leave presented: chunks, none empty, that hold its bytes in order. -/
def holdsBytes (ps : List Presented) (bytes : List Byte) : Prop :=
  ∃ chunks : List (List Byte), (∀ c ∈ chunks, c ≠ []) ∧ chunks.flatten = bytes ∧ ps = chunks.map .receive

theorem holdsBytes_leftOver (bytes : List Byte) : holdsBytes (leftOver bytes) bytes := by
  unfold leftOver
  split
  · next h => exact ⟨[], by simp, by simp [h], rfl⟩
  · next h => exact ⟨[bytes], by simpa using h, by simp, rfl⟩

theorem holdsBytes_append {ps qs : List Presented} {bs cs : List Byte} (hp : holdsBytes ps bs) (hq : holdsBytes qs cs) :
    holdsBytes (ps ++ qs) (bs ++ cs) := by
  obtain ⟨x, x1, x2, rfl⟩ := hp
  obtain ⟨y, y1, y2, rfl⟩ := hq
  exact ⟨x ++ y, fun c h => (List.mem_append.1 h).elim (x1 c) (y1 c), by simp [x2, y2], by simp⟩

/-- With a chunk presented first, a step is one `RX`, of the chunk's first byte (R8, R89). -/
theorem step_receive {s : State} {b : Byte} {bytes : List Byte} {rest : List Presented}
    (h : s.inputs = .receive (b :: bytes) :: rest) :
    ∃ left, holdsBytes left bytes ∧
      step s = .next { s.rxByte b with inputs := left ++ rest, out := Outputs.none } := by
  cases hf : startsWithFrame (b :: bytes) with
  | false =>
    refine ⟨leftOver bytes, holdsBytes_leftOver _, ?_⟩
    have hd : decode (.receive (b :: bytes)) = .ok (.rx b, leftOver bytes) := by
      show (match decodeReceive (b :: bytes) with | .ok (i, r) => _ | .error r => _) = _
      rw [decodeReceive_byte b bytes hf]
    simp only [step, State.fetch, h, hd]
    exact congrArg Host.Outcome.next (s.rxByte_io b _ _)
  | true =>
    obtain ⟨a, t, l, body, tail, hl, e⟩ := startsWithFrame_frame hf
    have hd : decode (.receive (b :: bytes)) = .ok (frameOfType t a l body, leftOver tail) := by
      show (match decodeReceive (b :: bytes) with | .ok (i, r) => _ | .error r => _) = _
      rw [e, decodeReceive_frame a t l body tail hl]
    rw [frameBytes_cons, List.cons_append, List.cons.injEq] at e
    obtain ⟨rfl, rfl⟩ := e
    have hr : receivedByte (frameOfType t a l body) = some 0xEF := by
      rw [receivedByte, rowBytes_frameOfType, frameBytes_cons]; rfl
    refine ⟨leftOver (laterBytes (frameOfType t a l body)) ++ leftOver tail,
      holdsBytes_append (by rw [laterBytes, rowBytes_frameOfType, frameBytes_cons]; exact holdsBytes_leftOver _)
        (holdsBytes_leftOver _), ?_⟩
    simp only [step, State.fetch, h, hd]
    rw [exec_received _ hr, s.rxByte_io]
    simp

theorem runEvents_append {es fs : List Instr} {s t : State} (h : runEvents es s = .next t) :
    runEvents (es ++ fs) s = runEvents fs t := by
  induction es generalizing s with
  | nil => cases h; rfl
  | cons i es ih =>
    rw [List.cons_append, runEvents]
    rw [runEvents] at h
    cases he : exec i s with
    | next u => rw [he] at h; exact ih h
    | fault f => rw [he] at h; cases h
    | refused f => rw [he] at h; cases h

/-- What EXPIRE on a verdict never touches, and what it always sets. -/
theorem State.latchVerdict_frame (s : State) (v : Verdict) :
    (s.latchVerdict v).cfg = s.cfg ∧ (s.latchVerdict v).buf = s.buf ∧ (s.latchVerdict v).cnt = s.cnt ∧
    (s.latchVerdict v).flags = s.flags ∧ (s.latchVerdict v).inputs = s.inputs ∧ (s.latchVerdict v).out = s.out ∧
    (s.latchVerdict v).explen = s.explen ∧ (s.latchVerdict v).expmode = s.expmode ∧
    (s.latchVerdict v).st = .done ∧ (s.latchVerdict v).rem = 0 ∧ (s.latchVerdict v).result ≠ .none := by
  rcases s.latchVerdict_cases v with ⟨r, hv, e⟩ | ⟨t, p, ck, hv, ht, e⟩ | ⟨p, ck, hv, hl, e⟩ | ⟨b, p, ck, hv, hl, e⟩ <;>
    rw [e] <;> simp

/-- What a tick never touches. -/
theorem State.tickEvent_frame {s t : State} (e : s.tickEvent = .next t) :
    t.cfg = s.cfg ∧ t.buf = s.buf ∧ t.cnt = s.cnt ∧ t.flags = s.flags ∧ t.inputs = s.inputs ∧ t.out = s.out ∧
    t.explen = s.explen ∧ t.expmode = s.expmode := by
  rcases s.tickEvent_cases with ⟨_, e'⟩ | ⟨h1, h2, e'⟩ | ⟨h1, h2, e'⟩ <;> rw [e'] at e
  · cases e; simp
  · cases e; simp
  · rcases s.expire_cases with ⟨hc, e2⟩ | ⟨hc, raw, hr, e2⟩ | ⟨hc, f, hr, e2⟩ <;> rw [e2] at e
    · cases e; simp
    · cases e
      obtain ⟨h1, h2, h3, h4, h5, h6, h7, h8, -⟩ := s.latchVerdict_frame (frameDecode s.cfg.verifyChecksum raw)
      exact ⟨h1, h2, h3, h4, h5, h6, h7, h8⟩
    · cases e

end Sys2Proof.Machine
end

