-- ==== Sys2Proof/Laws/PerInstr.lean ====
section
/-! SUPPORT. Statements made per instruction, one lemma a constructor. -/

namespace Sys2Proof.Laws

/-- On which port an item is presented (30_encoding.md R85, R89). -/
inductive Port where
  | reset
  | command
  | receive
  | tick
deriving DecidableEq, Repr

/-- The port of a presented item. -/
def portOf : Presented → Port
  | .reset _ => .reset
  | .command _ => .command
  | .payload _ _ => .command
  | .receive _ => .receive
  | .tick _ => .tick

/-- The port the table's row group stands on: FRAME and RX on the receive port, OP and CMDPAYLOAD on the command port. -/
def rowPort : Instr → Port
  | .frameCommand _ _ _ => .receive
  | .frameData _ _ _ => .receive
  | .frameAck _ _ _ => .receive
  | .frameEnd _ _ _ => .receive
  | .frameReserved _ _ _ _ => .receive
  | .rx _ => .receive
  | .tick => .tick
  | .reset => .reset
  | _ => .command

/-- Each instruction is encoded on the port of its row. -/
def EncodesOnItsPort.Statement (i : Instr) : Prop := portOf (encode i) = rowPort i

end Sys2Proof.Laws

theorem Sys2Proof.Laws.EncodesOnItsPort.frameCommand (a : Sys2Proof.U32) (l : Sys2Proof.U16) (body : List Sys2Proof.Byte) :
    Sys2Proof.Laws.EncodesOnItsPort.Statement (.frameCommand a l body) := rfl

theorem Sys2Proof.Laws.EncodesOnItsPort.frameData (a : Sys2Proof.U32) (l : Sys2Proof.U16) (body : List Sys2Proof.Byte) :
    Sys2Proof.Laws.EncodesOnItsPort.Statement (.frameData a l body) := rfl

theorem Sys2Proof.Laws.EncodesOnItsPort.frameAck (a : Sys2Proof.U32) (l : Sys2Proof.U16) (body : List Sys2Proof.Byte) :
    Sys2Proof.Laws.EncodesOnItsPort.Statement (.frameAck a l body) := rfl

theorem Sys2Proof.Laws.EncodesOnItsPort.frameEnd (a : Sys2Proof.U32) (l : Sys2Proof.U16) (body : List Sys2Proof.Byte) :
    Sys2Proof.Laws.EncodesOnItsPort.Statement (.frameEnd a l body) := rfl

theorem Sys2Proof.Laws.EncodesOnItsPort.frameReserved (t : Sys2Proof.Byte) (a : Sys2Proof.U32) (l : Sys2Proof.U16) (body : List Sys2Proof.Byte) :
    Sys2Proof.Laws.EncodesOnItsPort.Statement (.frameReserved t a l body) := rfl

theorem Sys2Proof.Laws.EncodesOnItsPort.nop :
    Sys2Proof.Laws.EncodesOnItsPort.Statement .nop := rfl

theorem Sys2Proof.Laws.EncodesOnItsPort.encodeFrame (a : Sys2Proof.U32) (t : Sys2Proof.Byte) (p : List Sys2Proof.Byte) :
    Sys2Proof.Laws.EncodesOnItsPort.Statement (.encodeFrame a t p) := rfl

theorem Sys2Proof.Laws.EncodesOnItsPort.decodeFrame (raw : List Sys2Proof.Byte) :
    Sys2Proof.Laws.EncodesOnItsPort.Statement (.decodeFrame raw) := rfl

theorem Sys2Proof.Laws.EncodesOnItsPort.beginExchange (d : Sys2Proof.U16) (explen : Sys2Proof.U16) (mode : Sys2Proof.ExpMode) :
    Sys2Proof.Laws.EncodesOnItsPort.Statement (.beginExchange d explen mode) := rfl

theorem Sys2Proof.Laws.EncodesOnItsPort.clrf :
    Sys2Proof.Laws.EncodesOnItsPort.Statement .clrf := rfl

theorem Sys2Proof.Laws.EncodesOnItsPort.release :
    Sys2Proof.Laws.EncodesOnItsPort.Statement .release := rfl

theorem Sys2Proof.Laws.EncodesOnItsPort.op6 :
    Sys2Proof.Laws.EncodesOnItsPort.Statement .op6 := rfl

theorem Sys2Proof.Laws.EncodesOnItsPort.op7 :
    Sys2Proof.Laws.EncodesOnItsPort.Statement .op7 := rfl

theorem Sys2Proof.Laws.EncodesOnItsPort.rx (b : Sys2Proof.Byte) :
    Sys2Proof.Laws.EncodesOnItsPort.Statement (.rx b) := rfl

theorem Sys2Proof.Laws.EncodesOnItsPort.tick :
    Sys2Proof.Laws.EncodesOnItsPort.Statement .tick := rfl

theorem Sys2Proof.Laws.EncodesOnItsPort.reset :
    Sys2Proof.Laws.EncodesOnItsPort.Statement .reset := rfl

theorem Sys2Proof.Laws.EncodesOnItsPort.cmdCaptureImage (a : Sys2Proof.U32) :
    Sys2Proof.Laws.EncodesOnItsPort.Statement (.cmdCaptureImage a) := rfl

theorem Sys2Proof.Laws.EncodesOnItsPort.cmdExtractFeatures (a : Sys2Proof.U32) (slot : Sys2Proof.Byte) :
    Sys2Proof.Laws.EncodesOnItsPort.Statement (.cmdExtractFeatures a slot) := rfl

theorem Sys2Proof.Laws.EncodesOnItsPort.cmdRegisterModel (a : Sys2Proof.U32) :
    Sys2Proof.Laws.EncodesOnItsPort.Statement (.cmdRegisterModel a) := rfl

theorem Sys2Proof.Laws.EncodesOnItsPort.cmdStoreModel (a : Sys2Proof.U32) (id : Sys2Proof.U16) :
    Sys2Proof.Laws.EncodesOnItsPort.Statement (.cmdStoreModel a id) := rfl

theorem Sys2Proof.Laws.EncodesOnItsPort.cmdLoadModel (a : Sys2Proof.U32) (id : Sys2Proof.U16) :
    Sys2Proof.Laws.EncodesOnItsPort.Statement (.cmdLoadModel a id) := rfl

theorem Sys2Proof.Laws.EncodesOnItsPort.cmdUploadModel (a : Sys2Proof.U32) :
    Sys2Proof.Laws.EncodesOnItsPort.Statement (.cmdUploadModel a) := rfl

theorem Sys2Proof.Laws.EncodesOnItsPort.cmdDeleteModel (a : Sys2Proof.U32) (id : Sys2Proof.U16) :
    Sys2Proof.Laws.EncodesOnItsPort.Statement (.cmdDeleteModel a id) := rfl

theorem Sys2Proof.Laws.EncodesOnItsPort.cmdEmptyDatabase (a : Sys2Proof.U32) :
    Sys2Proof.Laws.EncodesOnItsPort.Statement (.cmdEmptyDatabase a) := rfl

theorem Sys2Proof.Laws.EncodesOnItsPort.cmdVerifyPassword (a : Sys2Proof.U32) (password : Sys2Proof.U32) :
    Sys2Proof.Laws.EncodesOnItsPort.Statement (.cmdVerifyPassword a password) := rfl

theorem Sys2Proof.Laws.EncodesOnItsPort.cmdFastSearch (a : Sys2Proof.U32) :
    Sys2Proof.Laws.EncodesOnItsPort.Statement (.cmdFastSearch a) := rfl

theorem Sys2Proof.Laws.EncodesOnItsPort.cmdTemplateCount (a : Sys2Proof.U32) :
    Sys2Proof.Laws.EncodesOnItsPort.Statement (.cmdTemplateCount a) := rfl
end

