-- ==== Sys2Proof/Tests/Slice0.lean ====
section
/-! SUPPORT. The model's own tests: ill-formed terms, words written out from the spec's encodings, one step on small
states with results from 95_test_vectors.md, and for each statement with hypotheses a state and operands that meet
them. -/

namespace Sys2Proof.Tests

open Sys2Proof Sys2Proof.Machine

/-! ## Small states -/

/-- `BUF_CAP = 64`, the capacity of the vectors. -/
def cfg64 (verify : Bool) : Config := ⟨⟨64, by decide⟩, verify⟩

/-- `BUF_CAP = 12`, the least capacity. -/
def cfg12 : Config := ⟨⟨12, by decide⟩, false⟩

/-- The reset state of an implementation with parameters `c`. -/
def idle (c : Config) : State := { State.reset with cfg := c }

/-- An exchange under way: `d` ticks left, `raw` received. -/
def listening (c : Config) (d n : U16) (mode : ExpMode) (raw : List Byte) : State :=
  { idle c with
    st := .listening, rem := d, explen := n, expmode := mode, cnt := BitVec.ofNat 17 raw.length
    buf := (List.range raw.length).zip raw }

/-- A status-only reply (V52). -/
def reply : List Byte := [0xEF, 0x01, 0xFF, 0xFF, 0xFF, 0xFF, 0x07, 0x00, 0x03, 0x00, 0x00, 0x0A]

/-- The fast-search reply for id 5, confidence 100 (S4). -/
def searchReply : List Byte :=
  [0xEF, 0x01, 0xFF, 0xFF, 0xFF, 0xFF, 0x07, 0x00, 0x07, 0x00, 0x00, 0x05, 0x00, 0x64, 0x00, 0x77]

/-- The status-only reply with a wrong checksum (V60). -/
def badReply : List Byte := [0xEF, 0x01, 0xFF, 0xFF, 0xFF, 0xFF, 0x07, 0x00, 0x03, 0x00, 0x00, 0x0B]

/-- The state of V52 after the deadline. -/
def doneOk : State :=
  { listening (cfg64 false) 0 1 .exact reply with
    st := .done, result := .ok, rtype := 7, rplen := 1, rstatus := 0, csumok := true }

/-- The state of S4 after the deadline. -/
def doneSearch : State :=
  { listening (cfg64 false) 0 5 .exact searchReply with
    st := .done, result := .ok, rtype := 7, rplen := 5, rstatus := 0, csumok := true }

/-- The state of an outcome, if it is one. -/
def nextOf : Host.Outcome State Fault Refusal → Option State
  | .next s => some s
  | .fault _ => none
  | .refused _ => none

/-- The registers of an outcome that the tests look at. -/
def outcomeOf (o : Host.Outcome State Fault Refusal) :
    Option (St × Result × ErrInfo × Byte × U16 × Byte × Bool) :=
  (nextOf o).map fun t => (t.st, t.result, t.errinfo, t.rtype, t.rplen, t.rstatus, t.csumok)

/-- `n` bytes `FF` (V5 to V7, V23 to V25). -/
def ffs (n : Nat) : List Byte := List.replicate n 0xFF

theorem ffs_length (n : Nat) : (ffs n).length = n := List.length_replicate

/-! ## Well-formedness (R70, R77, R81, R103) -/

theorem test_illformed_frameCommand : WellFormed (.frameCommand 0 3 [0x01, 0x00]) = false := by decide

theorem test_illformed_frameData : WellFormed (.frameData 0 3 [0x01, 0x00, 0x05, 0x00]) = false := by decide

theorem test_illformed_frameAck : WellFormed (.frameAck 0 3 []) = false := by decide

theorem test_illformed_frameEnd : WellFormed (.frameEnd 0 2 [0x00]) = false := by decide

theorem test_illformed_frameReserved :
    WellFormed (.frameReserved 3 0 2 [0x00]) = false ∧ WellFormed (.frameReserved 7 0 2 [0x00, 0x09]) = false := by
  decide

theorem test_illformed_encodeFrame : WellFormed (.encodeFrame 0 2 (ffs 65534)) = false := by
  rw [WellFormed, ffs_length]; decide

theorem test_wellformed_limits : WellFormed (.encodeFrame 0 2 (ffs 65533)) = true ∧
    WellFormed (.frameEnd 0xFFFFFFFF 2 [0x00, 0x0A]) = true ∧ WellFormed (.frameReserved 9 0 0 []) = true := by
  refine ⟨?_, by decide, by decide⟩
  rw [WellFormed, ffs_length]; decide

/-! ## Decoding words written out from the encodings -/

/-- R70, R73, R81: the frames of S1, S3, V38, V21, V22. -/
theorem test_decode_frames :
    decode (.receive [0xEF, 0x01, 0xFF, 0xFF, 0xFF, 0xFF, 0x01, 0x00, 0x06, 0x06, 0x01, 0x00, 0x05, 0x00, 0x13]) =
      .ok (.frameCommand 0xFFFFFFFF 6 [0x06, 0x01, 0x00, 0x05, 0x00, 0x13], []) ∧
    decode (.receive [0xEF, 0x01, 0x12, 0x34, 0x56, 0x78, 0x02, 0x00, 0x06, 0xDE, 0xAD, 0xBE, 0xEF, 0x03, 0x40]) =
      .ok (.frameData 0x12345678 6 [0xDE, 0xAD, 0xBE, 0xEF, 0x03, 0x40], []) ∧
    decode (.receive reply) = .ok (.frameAck 0xFFFFFFFF 3 [0x00, 0x00, 0x0A], []) ∧
    decode (.receive [0xEF, 0x01, 0xFF, 0xFF, 0xFF, 0xFF, 0x08, 0x00, 0x02, 0x00, 0x0A]) =
      .ok (.frameEnd 0xFFFFFFFF 2 [0x00, 0x0A], []) ∧
    decode (.receive [0xEF, 0x01, 0x00, 0x00, 0x00, 0x00, 0x00, 0x00, 0x03, 0xFF, 0x01, 0x02]) =
      .ok (.frameReserved 0 0 3 [0xFF, 0x01, 0x02], []) := ⟨rfl, rfl, rfl, rfl, rfl⟩

/-- R86: the eight operation codes, with operands on the other lines. -/
theorem test_decode_operations (a : U32) (t : Byte) (p : List Byte) (d n : U16) :
    decode (.command ⟨0b000, a, t, p, d, n, 0⟩) = .ok (.nop, []) ∧
    decode (.command ⟨0b001, a, t, p, d, n, 0⟩) = .ok (.encodeFrame a t p, []) ∧
    decode (.command ⟨0b010, a, t, p, d, n, 0⟩) = .ok (.decodeFrame p, []) ∧
    decode (.command ⟨0b011, a, t, p, d, n, 0⟩) = .ok (.beginExchange d n .exact, []) ∧
    decode (.command ⟨0b011, a, t, p, d, n, 1⟩) = .ok (.beginExchange d n .atLeast, []) ∧
    decode (.command ⟨0b100, a, t, p, d, n, 0⟩) = .ok (.clrf, []) ∧
    decode (.command ⟨0b101, a, t, p, d, n, 0⟩) = .ok (.release, []) ∧
    decode (.command ⟨0b110, a, t, p, d, n, 0⟩) = .ok (.op6, []) ∧
    decode (.command ⟨0b111, a, t, p, d, n, 0⟩) = .ok (.op7, []) :=
  ⟨rfl, rfl, rfl, rfl, rfl, rfl, rfl, rfl, rfl⟩

/-- R89, R91: the events, and what holds none. A chunk that is no whole frame is its bytes. -/
theorem test_decode_events :
    decode (.receive [0x55]) = .ok (.rx 0x55, []) ∧
    decode (.receive [0xEF, 0x01, 0xFF]) = .ok (.rx 0xEF, [.receive [0x01, 0xFF]]) ∧
    decode (.tick 1) = .ok (.tick, []) ∧ decode (.reset 1) = .ok (.reset, []) ∧
    decode (.tick 0) = .error .strobeLow ∧ decode (.reset 0) = .error .strobeLow ∧
    decode (.receive []) = .error .emptyChunk := ⟨rfl, rfl, rfl, rfl, rfl, rfl, rfl⟩

/-- R151 to R161, and R162: any other payload is framed equally. -/
theorem test_decode_payloads (a : U32) :
    decode (.payload a [0x01]) = .ok (.cmdCaptureImage a, []) ∧
    decode (.payload a [0x02, 0x01]) = .ok (.cmdExtractFeatures a 1, []) ∧
    decode (.payload a [0x05]) = .ok (.cmdRegisterModel a, []) ∧
    decode (.payload a [0x06, 0x01, 0x01, 0x02]) = .ok (.cmdStoreModel a 0x0102, []) ∧
    decode (.payload a [0x07, 0x01, 0x00, 0x05]) = .ok (.cmdLoadModel a 5, []) ∧
    decode (.payload a [0x08, 0x01]) = .ok (.cmdUploadModel a, []) ∧
    decode (.payload a [0x0c, 0x01, 0x02, 0x00, 0x01]) = .ok (.cmdDeleteModel a 0x0102, []) ∧
    decode (.payload a [0x0d]) = .ok (.cmdEmptyDatabase a, []) ∧
    decode (.payload a [0x13, 0x12, 0x34, 0x56, 0x78]) = .ok (.cmdVerifyPassword a 0x12345678, []) ∧
    decode (.payload a [0x1b, 0x01, 0x00, 0x00, 0x00, 0xa3]) = .ok (.cmdFastSearch a, []) ∧
    decode (.payload a [0x1d]) = .ok (.cmdTemplateCount a, []) ∧
    decode (.payload a [0x0c, 0x01, 0x02, 0x00, 0x02]) = .ok (.encodeFrame a 1 [0x0c, 0x01, 0x02, 0x00, 0x02], []) :=
  ⟨rfl, rfl, rfl, rfl, rfl, rfl, rfl, rfl, rfl, rfl, rfl, rfl⟩

/-- The bare words of spec/opcode_table.json (log 14). -/
theorem test_table_words :
    decodeTableWord 72 0xEF01FFFFFFFF010003 = some (.frameCommand 0xFFFFFFFF 3 [0, 0, 0]) ∧
    decodeTableWord 72 0xEF0100000000030000 = some (.frameReserved 3 0 0 []) ∧
    decodeTableWord 8 3 = some (.beginExchange 0 0 .exact) ∧ decodeTableWord 8 0x1D = some (.cmdTemplateCount 0) ∧
    decodeTableWord 8 0x55 = some (.rx 0x55) ∧ decodeTableWord 16 0x0202 = some (.cmdExtractFeatures 0 2) ∧
    decodeTableWord 32 0x07010005 = some (.cmdLoadModel 0 5) ∧
    decodeTableWord 40 0x0C00050001 = some (.cmdDeleteModel 0 5) ∧
    decodeTableWord 48 0x1B01000000A3 = some (.cmdFastSearch 0) := ⟨rfl, rfl, rfl, rfl, rfl, rfl, rfl, rfl, rfl⟩

/-- The very next step after reset runs the word placed (V72, V74; the first byte of a frame). -/
theorem test_step_after_reset :
    (nextOf (step (State.reset.withFetchWord 8 0x55))).map (fun t => (t.flags, t.inputs)) = some (0b0010#4, []) ∧
    (nextOf (step (State.reset.withFetchWord 8 6))).map (fun t => (t.flags, t.inputs)) = some (0b1000#4, []) ∧
    (nextOf (step (State.reset.withFetchWord 72 0xEF01FFFFFFFF070002))).map (fun t => (t.flags, t.inputs)) =
      some (0b0010#4, [.receive [0x01, 0xFF, 0xFF, 0xFF, 0xFF, 0x07, 0x00, 0x02, 0x00, 0x00]]) :=
  ⟨rfl, rfl, rfl⟩

/-! ## One step each -/

/-- What one step of a FRAME row leaves in an exchange that had received one byte: `CNT`, the byte stored, the byte
before it, and the bytes left on the receive port. -/
def firstByteOf (i : Instr) : Option (BitVec 17 × Option Byte × Option Byte × List Presented) :=
  (nextOf (exec i (listening (cfg64 false) 9 1 .exact [0x77]))).map fun t =>
    (t.cnt, t.buf.read 1, t.buf.read 0, t.inputs)

/-- R8, R89, R124: the frame of S1. -/
theorem test_frameCommand : firstByteOf (.frameCommand 0xFFFFFFFF 6 [0x06, 0x01, 0x00, 0x05, 0x00, 0x13]) =
    some (2, some 0xEF, some 0x77,
      [.receive [0x01, 0xFF, 0xFF, 0xFF, 0xFF, 0x01, 0x00, 0x06, 0x06, 0x01, 0x00, 0x05, 0x00, 0x13]]) := by decide

/-- R8, R89, R124: the frame of S3. -/
theorem test_frameData : firstByteOf (.frameData 0x12345678 6 [0xDE, 0xAD, 0xBE, 0xEF, 0x03, 0x40]) =
    some (2, some 0xEF, some 0x77,
      [.receive [0x01, 0x12, 0x34, 0x56, 0x78, 0x02, 0x00, 0x06, 0xDE, 0xAD, 0xBE, 0xEF, 0x03, 0x40]]) := by decide

/-- R8, R89, R124: the frame of V38. -/
theorem test_frameAck : firstByteOf (.frameAck 0xFFFFFFFF 3 [0x00, 0x00, 0x0A]) =
    some (2, some 0xEF, some 0x77, [.receive reply.tail]) := by decide

/-- R8, R89, R124: the frame of V21. -/
theorem test_frameEnd : firstByteOf (.frameEnd 0xFFFFFFFF 2 [0x00, 0x0A]) =
    some (2, some 0xEF, some 0x77, [.receive [0x01, 0xFF, 0xFF, 0xFF, 0xFF, 0x08, 0x00, 0x02, 0x00, 0x0A]]) := by decide

/-- R8, R89, R124, R81: the frame of V22 with type 9. -/
theorem test_frameReserved : firstByteOf (.frameReserved 9 0 3 [0xFF, 0x01, 0x02]) =
    some (2, some 0xEF, some 0x77, [.receive [0x01, 0x00, 0x00, 0x00, 0x00, 0x09, 0x00, 0x03, 0xFF, 0x01, 0x02]]) := by
  decide

/-- R124: the first byte of a frame on a full buffer. -/
theorem test_frameAck_overflow :
    (nextOf (exec (.frameAck 0xFFFFFFFF 3 [0x00, 0x00, 0x0A]) (listening cfg12 1 5 .exact reply))).map
      (fun t => (t.cnt, t.flags, t.buf.length, t.inputs)) = some (12, 0b0001#4, 12, [.receive reply.tail]) := by
  decide

/-- V78. -/
theorem test_nop : exec .nop (listening (cfg64 false) 7 1 .exact [1, 2, 3]) =
    .next (listening (cfg64 false) 7 1 .exact [1, 2, 3]) := rfl

/-- S3 and V22: the address reaches the frame and not the checksum. -/
theorem test_encodeFrame :
    frameEncode 0x12345678 2 [0xDE, 0xAD, 0xBE, 0xEF] =
      some [0xEF, 0x01, 0x12, 0x34, 0x56, 0x78, 0x02, 0x00, 0x06, 0xDE, 0xAD, 0xBE, 0xEF, 0x03, 0x40] ∧
    (nextOf (exec (.encodeFrame 0 0 [0xFF]) (idle (cfg64 false)))).map (fun t => t.out.tx) =
      some (some [0xEF, 0x01, 0x00, 0x00, 0x00, 0x00, 0x00, 0x00, 0x03, 0xFF, 0x01, 0x02]) := by decide

/-- V25: a payload one byte too long gives no output. -/
theorem test_encodeFrame_too_long : frameEncode 0xFFFFFFFF 2 (ffs 65534) = none := by
  rw [frameEncode, if_neg]
  rw [ffs_length]; decide

/-- V1 to V4, V8, and V6, where the sum wraps. -/
theorem test_checksum :
    checksum 1 3 [0x01] = 0x0005 ∧ checksum 7 3 [0x00] = 0x000A ∧ checksum 8 2 [] = 0x000A ∧
    checksum 1 8 [0x1B, 0x01, 0x00, 0x00, 0x00, 0xA3] = 0x00C8 ∧ checksum 0 3 [0xFF] = 0x0102 ∧
    checksum 2 0x0103 (ffs 257) = 0x0005 := by decide +kernel

/-- R101 says that no frame has checksum 0 or 1 unless the sum wraps; by R100 this one has checksum 1 with no wrap
(log 21). -/
theorem test_checksum_one : frameEncode 0 0 (List.replicate 254 0) =
    some ([0xEF, 0x01, 0, 0, 0, 0, 0x00, 0x01, 0x00] ++ List.replicate 254 0 ++ [0x00, 0x01]) := by decide +kernel

/-- V30 to V37, V40, V45: the refusals. -/
theorem test_decodeFrame_refuses :
    frameDecode false [] = .badFrame .marker ∧ frameDecode true [0xEF] = .badFrame .marker ∧
    frameDecode false [0xEF, 0x01] = .badFrame .short ∧
    frameDecode true (0x01 :: reply) = .badFrame .marker ∧
    frameDecode false [0xEF, 0x01, 0xFF, 0xFF, 0xFF, 0xFF, 0x07, 0x00] = .badFrame .short ∧
    frameDecode false [0xEF, 0x01, 0xFF, 0xFF, 0xFF, 0xFF, 0x07, 0x00, 0x00] = .badFrame .len ∧
    frameDecode true [0xEF, 0x01, 0xFF, 0xFF, 0xFF, 0xFF, 0x07, 0x00, 0x01, 0x00] = .badFrame .len ∧
    frameDecode true [0xEF, 0x01, 0xFF, 0xFF, 0xFF, 0xFF, 0x07, 0x00, 0x03, 0x00, 0x00] = .badFrame .short ∧
    frameDecode true badReply = .badFrame .checksum ∧
    frameDecode false [0xEF, 0x01, 0xFF, 0xFF, 0xFF, 0xFF, 0x07, 0xFF, 0xFF, 0x00] = .badFrame .short := by decide

/-- V38, V39, V41 to V44, V46: the acceptances, one through the command port. -/
theorem test_decodeFrame_accepts :
    (nextOf (exec (.decodeFrame reply) (idle (cfg64 true)))).map (fun t => t.out.verdict) =
      some (some (.ok 7 [0x00] true)) ∧
    frameDecode false badReply = .ok 7 [0x00] false ∧ frameDecode true (reply ++ [0x99, 0x99]) = .ok 7 [0x00] true ∧
    frameDecode true [0xEF, 0x01, 0xFF, 0xFF, 0xFF, 0xFF, 0x08, 0x00, 0x02, 0x00, 0x0A] = .ok 8 [] true ∧
    frameDecode true [0xEF, 0x01, 0xAA, 0xBB, 0xCC, 0xDD, 0x07, 0x00, 0x03, 0x00, 0x00, 0x0A] = .ok 7 [0x00] true ∧
    frameDecode true [0xEF, 0x01, 0x00, 0x00, 0x00, 0x00, 0x00, 0x00, 0x03, 0xFF, 0x01, 0x02] = .ok 0 [0xFF] true ∧
    frameDecode true [0xEF, 0x01, 0xFF, 0xFF, 0xFF, 0xFF, 0x07, 0x00, 0x02, 0x00, 0x09] = .ok 7 [] true := by decide

/-- V80, V51. -/
theorem test_beginExchange :
    exec (.beginExchange 10 1 .exact) { doneOk with flags := 0b0001 } =
      .next (listening (cfg64 false) 10 1 .exact []) ∧
    exec (.beginExchange 0 1 .exact) (idle (cfg64 false)) =
      .next { idle (cfg64 false) with st := .done, result := .timeout, explen := 1 } := ⟨rfl, rfl⟩

/-- V70. -/
theorem test_beginExchange_busy : exec (.beginExchange 500 5 .exact) (listening (cfg64 false) 120 1 .exact []) =
    .next { listening (cfg64 false) 120 1 .exact [] with flags := 0b0100 } := rfl

/-- V75. -/
theorem test_clrf : exec .clrf { doneOk with flags := 0b1111 } = .next doneOk := rfl

/-- V81, V76: the record is cleared, `OVF` stays; in `IDLE` nothing happens. -/
theorem test_release :
    exec .release { doneOk with flags := 0b0001 } = .next { idle (cfg64 false) with flags := 0b0001 } ∧
    exec .release (idle (cfg64 false)) = .next (idle (cfg64 false)) := ⟨rfl, rfl⟩

/-- V71. -/
theorem test_release_busy : exec .release (listening (cfg64 false) 120 1 .exact []) =
    .next { listening (cfg64 false) 120 1 .exact [] with flags := 0b0100 } := rfl

/-- V74. -/
theorem test_op6 : exec .op6 (idle (cfg64 false)) = .next { idle (cfg64 false) with flags := 0b1000 } := rfl

/-- R87, R136. -/
theorem test_op7 : exec .op7 doneOk = .next { doneOk with flags := 0b1000 } := rfl

/-- V72, V73. -/
theorem test_rx_stray :
    exec (.rx 0x55) (idle (cfg64 false)) = .next { idle (cfg64 false) with flags := 0b0010 } ∧
    exec (.rx 0x55) doneOk = .next { doneOk with flags := 0b0010 } := ⟨rfl, rfl⟩

/-- R124: a byte appended. -/
theorem test_rx : exec (.rx 0x55) (listening (cfg64 false) 7 1 .exact [1, 2, 3]) =
    .next (listening (cfg64 false) 7 1 .exact [1, 2, 3, 0x55]) := rfl

/-- The outcome of the tick that reaches the deadline. -/
def resolved (verify : Bool) (n : U16) (mode : ExpMode) (raw : List Byte) :
    Option (St × Result × ErrInfo × Byte × U16 × Byte × Bool) :=
  outcomeOf (exec .tick (listening (cfg64 verify) 1 n mode raw))

/-- V50, V52 to V60, S6, S7. -/
theorem test_tick_decoded_frames :
    resolved false 1 .exact [] = some (.done, .timeout, .none, 0, 0, 0, false) ∧
    resolved false 1 .exact reply = some (.done, .ok, .none, 7, 1, 0x00, true) ∧
    resolved false 1 .exact [0xEF, 0x01, 0xFF, 0xFF, 0xFF, 0xFF, 0x07, 0x00, 0x03, 0x02, 0x00, 0x0C] =
      some (.done, .ok, .none, 7, 1, 0x02, true) ∧
    resolved false 1 .exact [0xEF, 0x01, 0xFF, 0xFF, 0xFF, 0xFF, 0x02, 0x00, 0x04, 0xDE, 0xAD, 0x01, 0x91] =
      some (.done, .unexpectedReply, .notAck, 2, 2, 0, true) ∧
    resolved false 1 .exact [0xEF, 0x01, 0xFF, 0xFF, 0xFF, 0xFF, 0x07, 0x00, 0x05, 0x00, 0x00, 0x0A, 0x00, 0x16] =
      some (.done, .unexpectedReply, .plen, 7, 3, 0, true) ∧
    resolved false 0 .exact [0xEF, 0x01, 0xFF, 0xFF, 0xFF, 0xFF, 0x07, 0x00, 0x02, 0x00, 0x09] =
      some (.done, .unexpectedReply, .plen, 7, 0, 0, true) ∧
    resolved false 1 .atLeast [0xEF, 0x01, 0xFF, 0xFF, 0xFF, 0xFF, 0x07, 0x00, 0x05, 0x00, 0x00, 0x0A, 0x00, 0x16] =
      some (.done, .ok, .none, 7, 3, 0x00, true) ∧
    resolved false 1 .exact badReply = some (.done, .ok, .none, 7, 1, 0x00, false) ∧
    resolved false 5 .exact [0xEF, 0x01, 0xFF, 0xFF, 0xFF, 0xFF, 0x07, 0x00, 0x07, 0x09, 0, 0, 0, 0, 0x00, 0x17] =
      some (.done, .ok, .none, 7, 5, 0x09, true) :=
  ⟨rfl, rfl, rfl, rfl, rfl, rfl, rfl, rfl, rfl⟩

/-- V60 with `VERIFY_CHECKSUM`, V61 to V65. -/
theorem test_tick_bad_packets :
    resolved true 1 .exact badReply = some (.done, .badPacket, .checksum, 0, 0, 0, false) ∧
    resolved false 1 .exact (0x00 :: reply) = some (.done, .badPacket, .marker, 0, 0, 0, false) ∧
    resolved false 1 .exact [0xEF, 0x01, 0xFF, 0xFF, 0xFF, 0xFF, 0x07, 0x00, 0x01, 0x00] =
      some (.done, .badPacket, .len, 0, 0, 0, false) ∧
    resolved false 1 .exact [0xEF] = some (.done, .badPacket, .marker, 0, 0, 0, false) ∧
    resolved false 1 .exact [0xEF, 0x01] = some (.done, .badPacket, .short, 0, 0, 0, false) ∧
    resolved false 5 .exact (searchReply.take 12) = some (.done, .badPacket, .short, 0, 0, 0, false) :=
  ⟨rfl, rfl, rfl, rfl, rfl, rfl⟩

/-- V79. -/
theorem test_reset : exec .reset { listening (cfg64 false) 3 1 .exact [1, 2, 3, 4, 5] with flags := 0b0110 } =
    .next (idle (cfg64 false)) := rfl

/-- The frame an event hands to the transmit port. -/
def sent (i : Instr) : Option (Option (List Byte)) :=
  (nextOf (exec i (idle (cfg64 false)))).map fun t => t.out.tx

/-- V10 to V12, S1, V13, V14: link address `FFFFFFFF`. -/
theorem test_commands_image_and_models :
    sent (.cmdCaptureImage 0xFFFFFFFF) =
      some (some [0xEF, 0x01, 0xFF, 0xFF, 0xFF, 0xFF, 0x01, 0x00, 0x03, 0x01, 0x00, 0x05]) ∧
    sent (.cmdExtractFeatures 0xFFFFFFFF 1) =
      some (some [0xEF, 0x01, 0xFF, 0xFF, 0xFF, 0xFF, 0x01, 0x00, 0x04, 0x02, 0x01, 0x00, 0x08]) ∧
    sent (.cmdRegisterModel 0xFFFFFFFF) =
      some (some [0xEF, 0x01, 0xFF, 0xFF, 0xFF, 0xFF, 0x01, 0x00, 0x03, 0x05, 0x00, 0x09]) ∧
    sent (.cmdStoreModel 0xFFFFFFFF 5) =
      some (some [0xEF, 0x01, 0xFF, 0xFF, 0xFF, 0xFF, 0x01, 0x00, 0x06, 0x06, 0x01, 0x00, 0x05, 0x00, 0x13]) ∧
    sent (.cmdLoadModel 0xFFFFFFFF 5) =
      some (some [0xEF, 0x01, 0xFF, 0xFF, 0xFF, 0xFF, 0x01, 0x00, 0x06, 0x07, 0x01, 0x00, 0x05, 0x00, 0x14]) ∧
    sent (.cmdUploadModel 0xFFFFFFFF) =
      some (some [0xEF, 0x01, 0xFF, 0xFF, 0xFF, 0xFF, 0x01, 0x00, 0x04, 0x08, 0x01, 0x00, 0x0E]) := by decide

/-- V15 to V17, V19, V20. -/
theorem test_commands_database :
    sent (.cmdDeleteModel 0xFFFFFFFF 5) =
      some (some [0xEF, 0x01, 0xFF, 0xFF, 0xFF, 0xFF, 0x01, 0x00, 0x07, 0x0C, 0x00, 0x05, 0x00, 0x01, 0x00, 0x1A]) ∧
    sent (.cmdEmptyDatabase 0xFFFFFFFF) =
      some (some [0xEF, 0x01, 0xFF, 0xFF, 0xFF, 0xFF, 0x01, 0x00, 0x03, 0x0D, 0x00, 0x11]) ∧
    sent (.cmdVerifyPassword 0xFFFFFFFF 0x12345678) =
      some (some [0xEF, 0x01, 0xFF, 0xFF, 0xFF, 0xFF, 0x01, 0x00, 0x07, 0x13, 0x12, 0x34, 0x56, 0x78, 0x01, 0x2F]) ∧
    sent (.cmdFastSearch 0xFFFFFFFF) = some (some [0xEF, 0x01, 0xFF, 0xFF, 0xFF, 0xFF, 0x01, 0x00, 0x08, 0x1B, 0x01,
      0x00, 0x00, 0x00, 0xA3, 0x00, 0xC8]) ∧
    sent (.cmdTemplateCount 0xFFFFFFFF) =
      some (some [0xEF, 0x01, 0xFF, 0xFF, 0xFF, 0xFF, 0x01, 0x00, 0x03, 0x1D, 0x00, 0x21]) := by decide

/-- S4: the host's reads after a fast search, and one past the payload (R32, U5). -/
theorem test_reply_fields :
    doneSearch.matchId = .ok 5 ∧ doneSearch.confidence = .ok 100 ∧ doneSearch.readPort 12 4 = .ok 0x64 ∧
    doneSearch.rpay 5 = .error (.rpayUndefined 5) ∧ (idle cfg12).rpay 0 = .error (.rpayUndefined 0) :=
  ⟨rfl, rfl, rfl, rfl, rfl⟩

/-! ## What the statements assume can be met

One theorem for each statement with hypotheses, at the edges of their ranges. -/

/-- The invariant holds in an exchange that received nothing, some bytes, and as many as fit. -/
theorem witness_inv_listening :
    (listening cfg12 1 1 .exact []).Inv ∧ (listening (cfg64 false) 5 1 .atLeast reply).Inv ∧
    (listening (cfg64 false) 1 1 .exact reply).Inv ∧ (listening cfg12 1 1 .exact reply).Inv := by
  refine ⟨?_, ?_, ?_, ?_⟩ <;> constructor <;> decide

theorem witness_inv_done : doneOk.Inv ∧ doneSearch.Inv := by
  refine ⟨?_, ?_⟩ <;> constructor <;> decide

theorem witness_inv_idle (c : Config) : (idle c).Inv := by
  constructor <;> simp [idle, State.reset, State.recordClear, State.recordWF, State.decodedReply]

theorem witness_ResetGivesResetValues : (⟨true, some (commandOf 3), some 0x55, true⟩ : ClockPeriod).reset = true := rfl

theorem witness_EncodeHandsOverTheFrame : (ffs 65533).length ≤ 65533 := by rw [ffs_length]

theorem witness_EncodeTooLongHandsOverNothing : 65533 < (ffs 65534).length := by rw [ffs_length]; decide

/-- Each verdict's premises, at the shortest operand that meets them. -/
theorem witness_DecodeAnswersByTheOrderedTests :
    ([0xEF] : List Byte).take 2 ≠ [0xEF, 0x01] ∧
    (([0xEF, 0x01] : List Byte).take 2 = [0xEF, 0x01] ∧ ([0xEF, 0x01] : List Byte).length < 9) ∧
    (let raw : List Byte := [0xEF, 0x01, 0, 0, 0, 0, 7, 0, 1]
     raw.take 2 = [0xEF, 0x01] ∧ 9 ≤ raw.length ∧ (byteAt raw 7).toNat * 256 + (byteAt raw 8).toNat < 2) ∧
    (let raw : List Byte := [0xEF, 0x01, 0, 0, 0, 0, 7, 0, 2, 0]
     raw.take 2 = [0xEF, 0x01] ∧ 9 ≤ raw.length ∧ 2 ≤ (byteAt raw 7).toNat * 256 + (byteAt raw 8).toNat ∧
       raw.length < 9 + ((byteAt raw 7).toNat * 256 + (byteAt raw 8).toNat)) ∧
    (badReply.take 2 = [0xEF, 0x01] ∧ 9 + 3 ≤ badReply.length ∧ (idle (cfg64 true)).cfg.verifyChecksum = true ∧
      (byteAt badReply 10).toNat * 256 + (byteAt badReply 11).toNat ≠ 7 + 0 + 3 + 0) ∧
    (reply.take 2 = [0xEF, 0x01] ∧ 9 + 3 ≤ reply.length ∧
      (byteAt reply 10).toNat * 256 + (byteAt reply 11).toNat = 7 + 0 + 3 + 0) := by decide

theorem witness_BeginStartsAnExchange :
    (idle cfg12).st ≠ .listening ∧ doneOk.st ≠ .listening := by decide

theorem witness_BeginInListeningIsRefused : (listening cfg12 1 1 .exact []).st = .listening := by decide

theorem witness_ReleaseDiscardsTheResult :
    doneOk.st = .done ∧ (listening cfg12 1 1 .exact []).st = .listening ∧ (idle cfg12).st = .idle := by decide

/-- The last byte that fits, and a full buffer. -/
theorem witness_RxAppendsOneByte :
    let s := listening cfg12 1 1 .exact (reply.take 11)
    let t := listening cfg12 1 1 .exact reply
    s.st = .listening ∧ s.cnt.toNat + 1 = s.cfg.cap ∧ t.st = .listening ∧ t.cfg.cap = t.cnt.toNat := by decide

theorem witness_RxOutsideListeningIsStray : (idle cfg12).st ≠ .listening ∧ doneOk.st ≠ .listening := by decide

theorem witness_TickCountsDown :
    let s := listening cfg12 2 1 .exact []
    s.st = .listening ∧ 1 < s.rem.toNat := by decide

theorem witness_TickOutsideListeningDoesNothing : (idle cfg12).st ≠ .listening ∧ doneOk.st ≠ .listening := by decide

/-- The premises every clause of the deadline shares, of the exchange that received `raw`. -/
abbrev atDeadline (n : U16) (mode : ExpMode) (raw : List Byte) : Prop :=
  let s := listening (cfg64 false) 1 n mode raw
  s.st = .listening ∧ s.rem = 1 ∧ raw.length = s.cnt.toNat ∧ ∀ i, (h : i < raw.length) → s.bufRead i = .ok raw[i]

/-- Each clause's premises: empty, undecodable, not an acknowledgment, no status byte, a wrong length in either mode,
and the expected length in either mode at its least. -/
theorem witness_DeadlineTickResolves :
    atDeadline 1 .exact [] ∧
    (atDeadline 1 .exact [0xEF] ∧ frameDecode false [0xEF] = .badFrame .marker) ∧
    (let raw : List Byte := [0xEF, 0x01, 0, 0, 0, 0, 2, 0, 2, 0, 4]
     atDeadline 1 .exact raw ∧ frameDecode false raw = .ok 2 [] true) ∧
    (let raw : List Byte := [0xEF, 0x01, 0, 0, 0, 0, 7, 0, 2, 0, 9]
     atDeadline 1 .exact raw ∧ frameDecode false raw = .ok 7 [] true ∧ ([] : List Byte).length < 1) ∧
    (atDeadline 2 .exact reply ∧ atDeadline 2 .atLeast reply ∧ frameDecode false reply = .ok 7 [0] true ∧
      ([0] : List Byte).length ≠ (2 : U16).toNat ∧ ([0] : List Byte).length < (2 : U16).toNat) ∧
    (atDeadline 1 .exact reply ∧ atDeadline 1 .atLeast reply ∧ ([] : List Byte).length + 1 = (1 : U16).toNat ∧
      (1 : U16).toNat ≤ ([] : List Byte).length + 1) := by decide

/-- Outside an exchange; the last byte that fits; a full buffer; and a row presented. -/
theorem witness_FrameRowsAreTheirBytesReceived :
    doneOk.st ≠ .listening ∧
    (let s := listening cfg12 1 1 .exact (reply.take 11)
     s.st = .listening ∧ s.cnt.toNat < s.cfg.cap ∧ s.cnt.toNat + 1 = s.cfg.cap) ∧
    (let s := listening cfg12 1 1 .exact reply
     s.st = .listening ∧ s.cfg.cap ≤ s.cnt.toNat) ∧
    { doneOk with inputs := [Presented.receive reply] }.inputs =
      .receive (frameBytes 0xFFFFFFFF 7 3 [0x00, 0x00, 0x0A]) :: [] := by decide

/-- The first and the last byte of a chunk that is a frame; outside an exchange, and on a buffer that takes one byte of
it. -/
theorem witness_ReceivedChunkIsStoredInOrder :
    (let s := { doneOk with inputs := [Presented.receive reply] }
     s.inputs = .receive reply :: [] ∧ 0 < 1 ∧ 1 ≤ reply.length ∧ 0 < 12 ∧ 12 = reply.length ∧ s.st ≠ .listening) ∧
    (let s := { listening cfg12 1 1 .exact (reply.take 11) with inputs := [Presented.receive reply] }
     s.inputs = .receive reply :: [] ∧ s.st = .listening ∧ s.cnt.toNat ≤ s.cfg.cap ∧ s.cnt.toNat + 0 < s.cfg.cap ∧
       s.cfg.cap ≤ s.cnt.toNat + 1 ∧ s.cfg.cap < s.cnt.toNat + reply.length) := by decide

/-- The longest payload that fits the least buffer, and each outcome's premises. -/
theorem witness_ExchangeDeliversTheFirstFrame :
    (idle cfg12).st ≠ .listening ∧ (1 : U16) ≠ 0 ∧ 11 + ([0x00] : List Byte).length ≤ (idle cfg12).cfg.cap ∧
    (2 : Byte) ≠ 7 ∧ lengthMeets 2 .exact 1 = false ∧ lengthMeets 2 .atLeast 1 = false ∧
    lengthMeets 1 .exact ([0x00] : List Byte).length = true ∧
    lengthMeets 1 .atLeast ([0x00] : List Byte).length = true := by decide

theorem witness_WrongChecksumAtTheDeadline (v : Bool) :
    let s := listening (cfg64 v) 1 1 .exact badReply
    s.st = .listening ∧ s.rem = 1 ∧ s.cfg.verifyChecksum = v ∧
    s.received = .ok (frameBytes 0xFFFFFFFF 7 3 ([0x00] ++ toBe16 0x000B ++ [])) ∧
    (0x000B : U16) ≠ checksum 7 3 [0x00] ∧ lengthMeets s.explen s.expmode 1 = true :=
  ⟨rfl, rfl, rfl, rfl, by decide, rfl⟩

theorem witness_NoResynchronisation :
    let s := listening (cfg64 false) 1 1 .exact (0x00 :: reply)
    s.st = .listening ∧ s.rem = 1 ∧ s.received = .ok (0x00 :: reply) ∧ (0x00 :: reply) ≠ [] ∧
    (0x00 :: reply).take 2 ≠ [0xEF, 0x01] := ⟨rfl, rfl, rfl, by decide, by decide⟩

theorem witness_ChecksumIgnoresOrderAndWrapsLate :
    ([0x01, 0x02] : List Byte).Perm [0x02, 0x01] ∧ (ffs 255).length ≤ 255 :=
  ⟨List.Perm.swap _ _ _, by rw [ffs_length]⟩

theorem witness_DecodeUndoesEncode : (ffs 65533).length ≤ 65533 := by rw [ffs_length]

theorem witness_EncodeIsInjective : frameEncode 0 7 [0x00] = frameEncode 0 7 [0x00] ∧
    ([0x00] : List Byte).length ≤ 65533 := by decide

theorem witness_DecodeDoesNotCheck : frameDecode true reply = .ok 7 [0x00] true ∧
    (ffs 65533).length ≤ 65533 ∧ (true = false ∨ (0x000A : U16) = checksum 7 3 [0x00]) :=
  ⟨by decide, by rw [ffs_length], by decide⟩

/-- Each of the three premises. -/
theorem witness_VerifyChecksumOnlyRejectsMismatches :
    frameDecode false [] = .badFrame .marker ∧ frameDecode false reply = .ok 7 [0x00] true ∧
    frameDecode false badReply = .ok 7 [0x00] false := by decide

/-- The last payload byte and the first index past it; a state without a decoded frame. -/
theorem witness_ReplyWindowReadsThePayload :
    doneSearch.Inv ∧ doneSearch.decodedReply ∧ doneSearch.result = .ok ∧ 4 < doneSearch.rplen.toNat ∧
    doneSearch.rplen.toNat ≤ 5 ∧ ¬ (idle cfg12).decodedReply := by
  refine ⟨witness_inv_done.2, ?_⟩; decide

theorem witness_ReplyFieldsAreBigEndian :
    doneSearch.Inv ∧ doneSearch.result = .ok ∧ 3 ≤ doneSearch.rplen.toNat ∧ 5 ≤ doneSearch.rplen.toNat := by
  refine ⟨witness_inv_done.2, ?_⟩; decide

/-- The ends of the last range. -/
theorem witness_StatusCodesAreClassified :
    (0x1b ≤ (0x1b : Byte).toNat ∧ (0x1b : Byte).toNat ≤ 0xfe) ∧ (0x1b ≤ (0xfe : Byte).toNat ∧ (0xfe : Byte).toNat ≤ 0xfe) ∧
    (0x04 : Byte) ∈ ([0x04, 0x05, 0x12, 0x13, 0x14, 0x16, 0x17, 0x19] : List Byte) := by decide

/-- A state in which the deadline tick is presented. -/
def lastTick : State := { listening (cfg64 false) 1 1 .exact reply with inputs := [.tick 1] }

theorem witness_lastTick_inv : lastTick.Inv := by constructor <;> decide

theorem witness_EveryStepKeepsTheInvariant : lastTick.Inv ∧ ∃ t, step lastTick = .next t ∧ t.st = .done :=
  ⟨witness_lastTick_inv, _, rfl, rfl⟩

/-- A state in `DONE` with a received byte presented, where the agreement is no empty claim. -/
theorem witness_EveryStepKeepsTheRecordTrue :
    let s := { doneOk with inputs := [Presented.receive [0x55]] }
    s.Inv ∧ s.RecordAgrees ∧ (s.st = .done ∧ s.cnt ≠ 0) ∧ ∃ t, step s = .next t ∧ t.flags = 0b0010#4 := by
  refine ⟨?_, fun _ _ => ⟨reply, rfl, rfl⟩, by decide, _, rfl, rfl⟩
  constructor <;> decide

theorem witness_EveryStepKeepsBufCanonical :
    let s := { listening (cfg64 false) 1 1 .exact [1, 2] with inputs := [Presented.receive [0x55]] }
    s.buf.wf ∧ ∃ t, step s = .next t ∧ t.buf = [(0, 1), (1, 2), (2, 0x55)] := ⟨by decide, _, rfl, rfl⟩

theorem witness_NeverStuck : doneOk.Inv ∧ lastTick.Inv := ⟨witness_inv_done.1, witness_lastTick_inv⟩

/-- The row of the deadline and the row of RELEASE. -/
theorem witness_StChangesOnlyByTheTable :
    (lastTick.Inv ∧ ∃ t, exec .tick lastTick = .next t ∧ t.st = .done) ∧
    (doneOk.Inv ∧ ∃ t, exec .release doneOk = .next t ∧ t.st = .idle) :=
  ⟨⟨witness_lastTick_inv, _, rfl, rfl⟩, witness_inv_done.1, _, rfl, rfl⟩

/-- `OVF` set by a byte on a full buffer; `STRAY` set outside an exchange. -/
theorem witness_FlagsAreSetAndClearedByTheTable :
    ((listening cfg12 1 1 .exact reply).Inv ∧ ∃ t, exec (.rx 0) (listening cfg12 1 1 .exact reply) = .next t ∧
      t.flag .ovf = true) ∧ (doneOk.Inv ∧ ∃ t, exec (.rx 0) doneOk = .next t ∧ t.flag .stray = true) :=
  ⟨⟨witness_inv_listening.2.2.2, _, rfl, rfl⟩, witness_inv_done.1, _, rfl, rfl⟩

theorem witness_FlagsInfluenceNothing : ∃ t, exec .tick lastTick = .next t ∧ t.st = .done := ⟨_, rfl, rfl⟩

/-- A buffer with another byte at the write position. -/
theorem witness_BufBeyondCntIsNeverRead :
    (∀ k, k < lastTick.cnt.toNat → Memory.read (lastTick.buf ++ [(12, 0x55)]) k = lastTick.buf.read k) ∧
    Memory.read (lastTick.buf ++ [(12, 0x55)]) 12 ≠ lastTick.buf.read 12 ∧
    ∃ t, exec .tick lastTick = .next t ∧ t.st = .done := ⟨by decide, by decide, _, rfl, rfl⟩

theorem witness_ResolvedRecordIsStable :
    doneOk.st = .done ∧ (∃ t, exec (.rx 0x55) doneOk = .next t ∧ t.flags = 0b0010#4) ∧
    (∀ d n mode, Instr.rx 0x55 ≠ .beginExchange d n mode) ∧ Instr.rx 0x55 ≠ .release ∧ Instr.rx 0x55 ≠ .reset :=
  ⟨rfl, ⟨_, rfl, rfl⟩, fun _ _ _ => Instr.noConfusion, Instr.noConfusion, Instr.noConfusion⟩

/-- A byte stored, and a buffer emptied. -/
theorem witness_BufChangesOnlyAtTheWritePosition :
    (∃ t, exec (.rx 0x55) (listening (cfg64 false) 1 1 .exact [1]) = .next t ∧ t.bufRead 1 = .ok 0x55) ∧
    (∃ t, exec .release doneOk = .next t ∧ t.bufRead 0 = .error (.undefinedBufByte 0)) := ⟨⟨_, rfl, rfl⟩, _, rfl, rfl⟩

/-- A byte on a full buffer and one on a buffer that is not. -/
theorem witness_CntAdvancesAndSaturates :
    ((listening cfg12 1 1 .exact reply).Inv ∧ ∃ t, exec (.rx 0) (listening cfg12 1 1 .exact reply) = .next t ∧
      t.cnt = 12) ∧ (lastTick.Inv ∧ ∃ t, exec (.rx 0) lastTick = .next t ∧ t.cnt = 13) :=
  ⟨⟨witness_inv_listening.2.2.2, _, rfl, rfl⟩, witness_lastTick_inv, _, rfl, rfl⟩

theorem witness_RemCountsTicksOnlyWhileListening :
    (listening (cfg64 false) 5 1 .atLeast reply).Inv ∧
    ∃ t, exec .tick (listening (cfg64 false) 5 1 .atLeast reply) = .next t ∧ t.rem = 4 :=
  ⟨witness_inv_listening.2.1, _, rfl, rfl⟩

theorem witness_ExpectationAndParametersAreKept :
    ∃ t, exec (.beginExchange 5 3 .atLeast) doneOk = .next t ∧ t.explen = 3 ∧ t.expmode = .atLeast := ⟨_, rfl, rfl, rfl⟩

/-- A rise and a fall. -/
theorem witness_DoneIrqRisesAndFalls :
    (lastTick.Inv ∧ lastTick.doneIrq = false ∧ ∃ t, exec .tick lastTick = .next t ∧ t.doneIrq = true) ∧
    (doneOk.Inv ∧ doneOk.doneIrq = true ∧ ∃ t, exec .release doneOk = .next t ∧ t.doneIrq = false) :=
  ⟨⟨witness_lastTick_inv, rfl, _, rfl, rfl⟩, witness_inv_done.1, rfl, _, rfl, rfl⟩

/-- No tick of one, and one of two with a byte before it. -/
theorem witness_ExchangeResolvesExactlyAtTheDeadline :
    (idle cfg12).Inv ∧ (idle cfg12).st ≠ .listening ∧ (1 : U16) ≠ 0 ∧ (2 : U16) ≠ 0 ∧
    tickCount [] < (1 : U16).toNat ∧ Instr.reset ∉ [Instr.rx 0x55, .tick] ∧
    tickCount [Instr.rx 0x55, .tick] + 1 = (2 : U16).toNat := by
  refine ⟨witness_inv_idle _, ?_⟩; decide

/-- One state that times out and one that succeeds. -/
theorem witness_TimeoutLaw :
    (let s := listening cfg12 1 1 .exact []
     s.Inv ∧ s.st = .listening ∧ s.rem = 1 ∧ ∃ t, exec .tick s = .next t ∧ t.result = .timeout) ∧
    (lastTick.Inv ∧ lastTick.st = .listening ∧ lastTick.rem = 1 ∧ ∃ t, exec .tick lastTick = .next t ∧ t.result = .ok) :=
  ⟨⟨witness_inv_listening.1, rfl, rfl, _, rfl, rfl⟩, witness_lastTick_inv, rfl, rfl, _, rfl, rfl⟩

theorem witness_OverflowMeansTheBufferIsFull :
    let s := listening cfg12 1 1 .exact reply
    s.Inv ∧ s.flag .ovf = false ∧ ∃ t, exec (.rx 0) s = .next t ∧ t.flag .ovf = true :=
  ⟨witness_inv_listening.2.2.2, rfl, _, rfl, rfl⟩

theorem witness_CoincidingEventsKeepTheOrder :
    (let s := { listening cfg12 1 1 .exact (reply.take 11) with inputs := periodInputs ⟨false, none, some 0x0A, true⟩ }
     s.Inv ∧ s.st = .listening ∧ s.rem = 1 ∧ s.cnt.toNat < s.cfg.cap) ∧
    (let s := { doneOk with inputs := periodInputs ⟨false, some (commandOf 4), some 0x55, false⟩ }
     s.st ≠ .listening) := by
  refine ⟨⟨?_, by decide⟩, by decide⟩
  constructor <;> decide

/-- A frame with a byte after it: the byte stays presented. -/
theorem witness_StepRunsTheDecodedEvent :
    decode (.receive (reply ++ [0x99])) = .ok (.frameAck 0xFFFFFFFF 3 [0x00, 0x00, 0x0A], [.receive [0x99]]) ∧
    { idle cfg12 with inputs := [Presented.receive (reply ++ [0x99])] }.inputs = Presented.receive (reply ++ [0x99]) :: [] :=
  ⟨rfl, rfl⟩

theorem witness_StepWithoutAnEventIdles : (idle cfg12).inputs = [] ∧ decode (.tick 0) = .error .strobeLow := ⟨rfl, rfl⟩

theorem witness_DecodeOfEncodeIsTheInstruction :
    WellFormed (.frameReserved 0xFF 0xFFFFFFFF 0 []) = true ∧ WellFormed (.cmdStoreModel 0 0xFFFF) = true := by decide

/-- A frame of no body at all, and one of a body; a marker with no header after it is no frame. -/
theorem witness_FrameIsReadOffTheHeadOfAChunk :
    (WellFormed (.frameEnd 0 0 []) = true ∧ rowBytes (.frameEnd 0 0 []) ≠ [] ∧ ∀ b, Instr.frameEnd 0 0 [] ≠ .rx b) ∧
    (WellFormed (.frameAck 0 2 [0x00, 0x09]) = true ∧ rowBytes (.frameAck 0 2 [0x00, 0x09]) ≠ [] ∧
      ∀ b, Instr.frameAck 0 2 [0x00, 0x09] ≠ .rx b) ∧
    (∀ i tail, WellFormed i = true → (∀ c, i ≠ .rx c) → rowBytes i ≠ [] → [0xEF, 0x01] ≠ rowBytes i ++ tail) := by
  refine ⟨⟨by decide, by decide, fun _ => Instr.noConfusion⟩, ⟨by decide, by decide, fun _ => Instr.noConfusion⟩, ?_⟩
  intro i tail _ hrx hne h
  have h := congrArg List.length h
  cases i <;> first
    | exact hrx _ rfl
    | exact hne rfl
    | simp [rowBytes, frameBytes, startMarker, toBe32, toBe16] at h

end Sys2Proof.Tests
end

section
/-! What a step does with an event, with none, and with bytes on the receive port: the statements of 00_scope.md. -/

open Sys2Proof Sys2Proof.Machine

namespace Sys2Proof.Proofs.Scope

/-! ## One step -/

/-- Settles O52: the state a step runs the decoded event on is what `State.fetch` leaves. -/
theorem stepRunsTheDecodedEvent : Obligations.StepRunsTheDecodedEvent := by
  intro s p rest left i hin hdec
  simp only [step, State.fetch, hin, hdec]

theorem runSteps_succ {s t : State} (n : Nat) (h : step s = .next t) : runSteps (n + 1) s = runSteps n t := by
  simp only [runSteps, h]

/-- Settles O53, one clause of `State.fetch` for each way to have no event. -/
theorem stepWithoutAnEventIdles : Obligations.StepWithoutAnEventIdles := by
  constructor
  · intro s hin
    simp only [step, State.fetch, hin]
  · intro s p rest r hin hdec
    simp only [step, State.fetch, hin, hdec]

/-! ## One received byte -/

theorem rxByte_eq_raise_stray {s : State} (b : Byte) (h : s.st ≠ .listening) : s.rxByte b = s.raise .stray :=
  if_neg h

theorem rxByte_eq_storeByte {s : State} (b : Byte) (h : s.st = .listening) (hc : s.cnt.toNat < s.cfg.cap) :
    s.rxByte b = s.storeByte b := by
  rw [State.rxByte, if_pos h, if_pos hc]

theorem rxByte_eq_raise_ovf {s : State} (b : Byte) (h : s.st = .listening) (hc : s.cfg.cap ≤ s.cnt.toNat) :
    s.rxByte b = s.raise .ovf := by
  rw [State.rxByte, if_pos h, if_neg (Nat.not_lt.2 hc)]

theorem storeByte_bufRead_cnt {s : State} (b : Byte) (hc : s.cnt.toNat < s.cfg.cap) :
    (s.storeByte b).bufRead s.cnt.toNat = .ok b :=
  State.bufRead_ok.2 ⟨hc, Memory.read_write_same ..⟩

theorem storeByte_bufRead_of_ne {s : State} (b : Byte) {j : Nat} (hj : j ≠ s.cnt.toNat) :
    (s.storeByte b).bufRead j = s.bufRead j := by
  simp [State.bufRead, Memory.read_write_other _ _ _ _ hj]

/-- A byte stored keeps `BUF[0..CNT)` the defined part of the buffer (R24). -/
theorem storeByte_bufDefined {s : State} (b : Byte) (h : s.buf.map Prod.fst = List.range s.cnt.toNat)
    (hc : s.cnt.toNat < s.cfg.cap) :
    (s.storeByte b).buf.map Prod.fst = List.range (s.storeByte b).cnt.toNat := by
  rw [State.storeByte_cnt_toNat b hc]
  exact (Memory.writeRun_above [b] h).1

/-- A byte presented as a chunk of its own is received, and the next item is first (R8, R89). -/
theorem step_single_byte {s : State} {b : Byte} {rest : List Presented} (hin : s.inputs = .receive [b] :: rest) :
    step s = .next { s.rxByte b with inputs := rest, out := Outputs.none } :=
  (stepRunsTheDecodedEvent s _ rest [] (.rx b) hin rfl).trans (congrArg Host.Outcome.next (s.rxByte_io b rest _))

/-! ## The rows of the receive port -/

/-- R124, R125 for a row of the receive port: what its step does, in each of the three cases of the byte received. -/
theorem exec_received_cases {i : Instr} {b : Byte} (s : State) (hb : receivedByte i = some b)
    (hl : laterBytes i ≠ []) :
    (s.st ≠ .listening → exec i s = .next { s with
      flags := s.flags ||| 0b0010#4, inputs := .receive (laterBytes i) :: s.inputs }) ∧
    (s.st = .listening → s.cnt.toNat < s.cfg.cap → ∃ u, exec i s = .next u ∧
      u = { s with buf := u.buf, cnt := u.cnt, inputs := .receive (laterBytes i) :: s.inputs } ∧
      u.cnt.toNat = s.cnt.toNat + 1 ∧ u.bufRead s.cnt.toNat = .ok b ∧
      ∀ j, j ≠ s.cnt.toNat → u.bufRead j = s.bufRead j) ∧
    (s.st = .listening → s.cfg.cap ≤ s.cnt.toNat → exec i s = .next { s with
      flags := s.flags ||| 0b0001#4, inputs := .receive (laterBytes i) :: s.inputs }) := by
  rw [exec_received s hb, leftOver, if_neg hl]
  refine ⟨fun h => ?stray, fun h hc => ?stored, fun h hc => ?full⟩
  case stray =>
    rw [rxByte_eq_raise_stray b h, State.raise, raiseFlag_stray]
    rfl
  case stored =>
    rw [rxByte_eq_storeByte b h hc]
    exact ⟨_, rfl, rfl, State.storeByte_cnt_toNat b hc, storeByte_bufRead_cnt b hc,
      fun _ hj => storeByte_bufRead_of_ne b hj⟩
  case full =>
    rw [rxByte_eq_raise_ovf b h hc, State.raise, raiseFlag_ovf]
    rfl

/-- The bytes of a frame after its first, each as a quotient of its field. -/
theorem frameBytes_tail (a : U32) (t : Byte) (l : U16) (body : List Byte) :
    (frameBytes a t l body).tail =
      [0x01, BitVec.ofNat 8 (a.toNat / 2 ^ 24), BitVec.ofNat 8 (a.toNat / 2 ^ 16),
        BitVec.ofNat 8 (a.toNat / 2 ^ 8), BitVec.ofNat 8 a.toNat, t, BitVec.ofNat 8 (l.toNat / 256),
        BitVec.ofNat 8 l.toNat] ++ body := by
  simp [frameBytes_cons, hi8, lo8, BitVec.extractLsb', Nat.shiftRight_eq_div_pow]

/-! ## A chunk, one byte a step -/

theorem holdsBytes_chunk {bytes : List Byte} (h : bytes ≠ []) : holdsBytes [.receive bytes] bytes :=
  ⟨[bytes], by simpa using h, by simp, rfl⟩

/-- Nothing stays presented of a chunk that is used up: no empty chunk is left behind. -/
theorem holdsBytes_nil {ps : List Presented} (h : holdsBytes ps []) : ps = [] := by
  obtain ⟨chunks, hne, hflat, rfl⟩ := h
  cases chunks with
  | nil => rfl
  | cons c cs => exact absurd (List.flatten_eq_nil_iff.1 hflat c List.mem_cons_self) (hne c List.mem_cons_self)

/-- Bytes presented first are presented as a chunk, and what follows that chunk. -/
theorem holdsBytes_cons {ps : List Presented} {b : Byte} {bytes : List Byte} (h : holdsBytes ps (b :: bytes)) :
    ∃ chunk later ps', ps = .receive (b :: chunk) :: ps' ∧ holdsBytes ps' later ∧ bytes = chunk ++ later := by
  obtain ⟨chunks, hne, hflat, rfl⟩ := h
  match chunks with
  | [] :: cs => exact absurd rfl (hne [] List.mem_cons_self)
  | (c :: chunk) :: cs =>
    obtain ⟨rfl, hbytes⟩ := List.cons.inj hflat
    exact ⟨chunk, cs.flatten, cs.map .receive, rfl,
      ⟨cs, fun c hc => hne c (List.mem_cons_of_mem _ hc), rfl, rfl⟩, hbytes.symm⟩

/-- With bytes presented first, in whatever chunks, a step is one `RX`, of the first of them (R8, R89). -/
theorem step_holdsBytes {s : State} {ps rest : List Presented} {b : Byte} {bytes : List Byte}
    (hin : s.inputs = ps ++ rest) (h : holdsBytes ps (b :: bytes)) :
    ∃ left, holdsBytes left bytes ∧
      step s = .next { s.rxByte b with inputs := left ++ rest, out := Outputs.none } := by
  obtain ⟨chunk, later, ps', rfl, hps', rfl⟩ := holdsBytes_cons h
  obtain ⟨left, hleft, hstep⟩ := step_receive (rest := ps' ++ rest) hin
  exact ⟨left ++ ps', holdsBytes_append hleft hps', by rw [hstep, List.append_assoc]⟩

/-- Receiving bytes does not read what is presented or was put out. -/
theorem receiveChunk_io (s : State) (bytes : List Byte) (w : List Presented) (o : Outputs) :
    { s with inputs := w, out := o }.receiveChunk bytes = { s.receiveChunk bytes with inputs := w, out := o } := by
  induction bytes generalizing s with
  | nil => rfl
  | cons b bytes ih => rw [State.receiveChunk_cons, State.rxByte_io, ih, State.receiveChunk_cons]

/-- As many steps as bytes are taken from the receive port receive them in order, and leave the later ones first on
it. -/
theorem runSteps_holdsBytes {s : State} {ps rest : List Presented} {b : Byte} {taken later : List Byte}
    (hin : s.inputs = ps ++ rest) (h : holdsBytes ps (b :: (taken ++ later))) :
    ∃ left, holdsBytes left later ∧ runSteps (taken.length + 1) s =
      .next { s.receiveChunk (b :: taken) with inputs := left ++ rest, out := Outputs.none } := by
  induction taken generalizing s ps b with
  | nil =>
    obtain ⟨left, hleft, hstep⟩ := step_holdsBytes hin h
    exact ⟨left, hleft, runSteps_succ 0 hstep⟩
  | cons c taken ih =>
    obtain ⟨left, hleft, hstep⟩ := step_holdsBytes hin h
    obtain ⟨left', hleft', hrun⟩ :=
      ih (s := { s.rxByte b with inputs := left ++ rest, out := Outputs.none }) rfl hleft
    exact ⟨left', hleft', by rw [List.length_cons, runSteps_succ _ hstep, hrun, receiveChunk_io]; rfl⟩

/-- `k` steps into a chunk its first `k` bytes are received, and after the whole of it the next item is first (R8,
R89). -/
theorem runSteps_chunk {s : State} {chunk : List Byte} {rest : List Presented} {k : Nat}
    (hin : s.inputs = .receive chunk :: rest) (hpos : 0 < k) (hk : k ≤ chunk.length) :
    ∃ w, runSteps k s = .next { s.receiveChunk (chunk.take k) with inputs := w, out := Outputs.none } ∧
      (k = chunk.length → w = rest) := by
  obtain ⟨n, rfl⟩ : ∃ n, k = n + 1 := ⟨k - 1, by omega⟩
  cases chunk with
  | nil => exact absurd hk (by simp)
  | cons b bytes =>
    have hlen : (bytes.take n).length = n := List.length_take_of_le (by simpa using hk)
    obtain ⟨left, hleft, hrun⟩ := runSteps_holdsBytes (taken := bytes.take n) (later := bytes.drop n) hin
      (by rw [List.take_append_drop]; exact holdsBytes_chunk (List.cons_ne_nil b bytes))
    rw [hlen] at hrun
    refine ⟨left ++ rest, hrun, fun hall => ?_⟩
    rw [List.drop_of_length_le (by simp at hall; omega)] at hleft
    rw [holdsBytes_nil hleft, List.nil_append]

/-- `RXS bytes` leaves the chunk received (R91). -/
theorem runEvents_rxs (s : State) (bytes : List Byte) : runEvents (rxs bytes) s = .next (s.receiveChunk bytes) := by
  induction bytes generalizing s with
  | nil => rfl
  | cons b bytes ih => exact ih (s.rxByte b)

/-- Settles O17: the step of a row by `exec_received_cases`, the steps over its bytes by `runSteps_chunk`. -/
theorem frameRowsAreTheirBytesReceived : Obligations.FrameRowsAreTheirBytesReceived := by
  constructor
  · intro a l t body s receives
    have row : ∀ i t, rowBytes i = frameBytes a t l body → receives i t := by
      intro i t hrow
      have hlater := frameBytes_tail a t l body
      rw [← hrow] at hlater
      have h := exec_received_cases (b := 0xEF) s (by rw [receivedByte, hrow]; rfl)
        (by rw [laterBytes, hlater]; simp)
      rwa [laterBytes, hlater] at h
    exact ⟨row _ _ rfl, row _ _ rfl, row _ _ rfl, row _ _ rfl, row _ _ rfl⟩
  · intro a l t body rest s hin
    obtain ⟨w, hrun, hw⟩ := runSteps_chunk hin (by simp) le_rfl
    rw [List.take_length, hw rfl] at hrun
    exact ⟨_, _, hrun, runEvents_rxs .., rfl⟩

/-! ## What a chunk in `LISTENING` leaves -/

theorem receiveChunk_cnt {s : State} (h : s.st = .listening) (hc : s.cnt.toNat ≤ s.cfg.cap) (bytes : List Byte) :
    (s.receiveChunk bytes).cnt.toNat = min s.cfg.cap (s.cnt.toNat + bytes.length) := by
  have := s.cfg.cap_le
  rw [State.receiveChunk_listening h hc]
  exact (BitVec.toNat_ofNat ..).trans (Nat.mod_eq_of_lt (by omega))

theorem receiveChunk_flags {s : State} (h : s.st = .listening) (hc : s.cnt.toNat ≤ s.cfg.cap) (bytes : List Byte) :
    (s.receiveChunk bytes).flags =
      if s.cfg.cap < s.cnt.toNat + bytes.length then s.flags ||| 0b0001#4 else s.flags := by
  rw [State.receiveChunk_listening h hc, raiseFlag_ovf]

/-- R124: the bytes that fit stand in order from the old write position on. -/
theorem receiveChunk_bufRead_stored {s : State} (h : s.st = .listening) {bytes : List Byte} {j : Nat}
    (hj : j < bytes.length) (hfit : s.cnt.toNat + j < s.cfg.cap) :
    (s.receiveChunk bytes).bufRead (s.cnt.toNat + j) = .ok bytes[j] := by
  rw [State.receiveChunk_listening h (by omega), State.bufRead_ok]
  refine ⟨hfit, ?_⟩
  rw [Memory.read_writeRun_inside _ _ _ _ (by rw [List.length_take]; omega), List.getElem?_take_of_lt (by omega),
    List.getElem?_eq_getElem hj]

theorem receiveChunk_bufRead_outside {s : State} (h : s.st = .listening) (hc : s.cnt.toNat ≤ s.cfg.cap)
    {bytes : List Byte} {j : Nat} (hj : j < s.cnt.toNat ∨ s.cnt.toNat + bytes.length ≤ j) :
    (s.receiveChunk bytes).bufRead j = s.bufRead j := by
  rw [State.receiveChunk_listening h hc]
  have hread := Memory.read_writeRun_outside s.buf s.cnt.toNat j (bytes.take (s.cfg.cap - s.cnt.toNat))
    (by rw [List.length_take]; omega)
  simp only [State.bufRead, hread]

/-- Settles O18: `k` steps are `receiveChunk` of the first `k` bytes, whose fields the lemmas above give. -/
theorem receivedChunkIsStoredInOrder : Obligations.ReceivedChunkIsStoredInOrder := by
  intro chunk rest s k hin hpos hk
  obtain ⟨w, hrun, hw⟩ := runSteps_chunk hin hpos hk
  have hlen : (chunk.take k).length = k := List.length_take_of_le hk
  refine ⟨fun hst => ⟨_, hrun, ?_, hw⟩, fun hst hc => ⟨_, hrun, ?_, hw, ?_, ?_, ?_, ?_⟩⟩
  · have hne : chunk.take k ≠ [] := List.ne_nil_of_length_pos (by omega)
    rw [State.receiveChunk_stray hst hne, State.raise, raiseFlag_stray]
  · rw [State.receiveChunk_listening hst hc]
  · rw [receiveChunk_cnt hst hc, hlen]
  · rw [receiveChunk_flags hst hc, hlen]
  · intro j hj hjk hfit
    have hstored := receiveChunk_bufRead_stored hst (bytes := chunk.take k) (by omega) hfit
    rwa [List.getElem_take] at hstored
  · intro j hj
    exact receiveChunk_bufRead_outside hst hc (by omega)

/-! ## The events of one clock period -/

/-- At the deadline, with `BUF[0..CNT)` defined, a tick never faults: it resolves the exchange (R130). -/
theorem tickEvent_deadline {s : State} (h : s.st = .listening) (hrem : s.rem.toNat ≤ 1)
    (hdef : s.buf.map Prod.fst = List.range s.cnt.toNat) (hc : s.cnt.toNat ≤ s.cfg.cap) :
    ∃ t, s.tickEvent = .next t ∧ t.st = .done := by
  rw [State.tickEvent, if_pos h, if_neg (by omega), State.expire]
  by_cases hz : s.cnt = 0
  · exact ⟨_, if_pos hz, rfl⟩
  · rw [if_neg hz, State.received_eq hdef hc]
    obtain ⟨-, -, -, -, -, -, -, -, hst, -⟩ :=
      s.latchVerdict_frame (frameDecode s.cfg.verifyChecksum (s.buf.map Prod.snd))
    exact ⟨_, rfl, hst⟩

/-- R196: `RX` comes before a `TICK` of the same period, so the byte is in the buffer that is decoded. -/
theorem rx_before_deadline_tick {s : State} {b : Byte} (hinv : s.Inv) (hst : s.st = .listening) (hrem : s.rem = 1)
    (hc : s.cnt.toNat < s.cfg.cap) (hin : s.inputs = [.receive [b], .tick 1]) :
    ∃ u t, step s = .next u ∧ step u = .next t ∧ t.st = .done ∧ t.cnt.toNat = s.cnt.toNat + 1 ∧
      t.bufRead s.cnt.toNat = .ok b := by
  let u : State := { s.storeByte b with inputs := [.tick 1], out := Outputs.none }
  have hrx : step s = .next u := by rw [step_single_byte hin, rxByte_eq_storeByte b hst hc]
  have htick := stepRunsTheDecodedEvent u _ _ [] .tick rfl rfl
  have hcnt := State.storeByte_cnt_toNat b hc
  obtain ⟨t, ht, hdone⟩ := tickEvent_deadline (s := { u with inputs := [], out := Outputs.none }) hst
    (by simp [u, hrem]) (storeByte_bufDefined b hinv.bufDefined hc) (hcnt.trans_le hc)
  obtain ⟨hcfg, hbuf, hcnt', -⟩ := State.tickEvent_frame ht
  refine ⟨u, t, hrx, htick.trans ht, hdone, by rw [hcnt']; exact hcnt, ?_⟩
  rw [State.bufRead_congr (s := s.storeByte b) hcfg hbuf]
  exact storeByte_bufRead_cnt b hc

/-- R196: an operation comes before an `RX` of the same period, so CLRF does not clear the `STRAY` of its byte. -/
theorem clrf_before_stray_rx {s : State} {b : Byte} (hst : s.st ≠ .listening)
    (hin : s.inputs = [.command (commandOf 4), .receive [b]]) :
    ∃ u t, step s = .next u ∧ step u = .next t ∧ t.flags = 0b0010#4 := by
  have hclrf := stepRunsTheDecodedEvent s _ _ [] .clrf hin rfl
  have hrx := step_single_byte (s := { s with flags := 0, inputs := [.receive [b]], out := Outputs.none }) (b := b) rfl
  rw [rxByte_eq_raise_stray b (by exact hst)] at hrx
  exact ⟨_, _, hclrf, hrx, raiseFlag_stray 0⟩

/-- Settles O51: the order is `periodInputs`', its two consequences are the two lemmas above. -/
theorem coincidingEventsKeepTheOrder : Obligations.CoincidingEventsKeepTheOrder :=
  ⟨fun _ _ _ => ⟨rfl, rfl⟩, fun _ _ => rx_before_deadline_tick, fun _ _ => clrf_before_stray_rx⟩

end Sys2Proof.Proofs.Scope
end

section
/-! What holds of every register over all events: the invariant, the reply window, the counters, the flags, `DONE_IRQ`,
and what no event reads: the statements of 10_state.md. -/

open Sys2Proof Sys2Proof.Machine

namespace Sys2Proof.Proofs.Registers

open Sys2Proof.Proofs.Scope

/-! ## An instruction of the receive port -/

/-- The state an instruction of the receive port leaves. -/
theorem eq_of_exec_received {i : Instr} {b : Byte} {s t : State} (hb : receivedByte i = some b)
    (h : exec i s = .next t) : t = { s.rxByte b with inputs := leftOver (laterBytes i) ++ s.inputs } := by
  rw [exec_received s hb] at h
  exact (Host.Outcome.next.inj h).symm

/-- Receiving a byte leaves every register but `CNT` and `FLAGS` as it was (R124, R125). -/
theorem exec_received_frame {i : Instr} {b : Byte} {s t : State} (hb : receivedByte i = some b)
    (h : exec i s = .next t) :
    ∃ m c w, t = { s with buf := m, cnt := c, flags := w, inputs := leftOver (laterBytes i) ++ s.inputs } := by
  obtain ⟨m, c, w, e⟩ : ∃ m c w, s.rxByte b = { s with buf := m, cnt := c, flags := w } := s.receiveChunk_frame [b]
  rw [eq_of_exec_received hb h, e]
  exact ⟨m, c, w, rfl⟩

/-! ## Where the invariant holds -/

/-- With the exchange over and the record cleared (R40.4), nothing is left to ask. -/
theorem inv_of_idle {s : State} (hst : s.st = .idle) (hres : s.result = .none) (hbuf : s.buf = []) (hcnt : s.cnt = 0)
    (hrem : s.rem = 0) (hlen : s.explen = 0) (hmode : s.expmode = .exact) (hclear : s.recordClear) : s.Inv := by
  obtain ⟨herr, htype, hplen, hstatus, hck⟩ := hclear
  constructor <;> simp [*, State.recordWF, State.recordClear, State.decodedReply]

/-- An exchange under way: `BUF[0..CNT)` defined, time left and the record clear (R40.5). -/
theorem inv_of_listening {s : State} (hst : s.st = .listening) (hdef : s.buf.map Prod.fst = List.range s.cnt.toNat)
    (hcap : s.cnt.toNat ≤ s.cfg.cap) (hrem : 1 ≤ s.rem.toNat) (hres : s.result = .none) (hclear : s.recordClear) :
    s.Inv := by
  constructor <;> simp [*, State.recordWF, State.decodedReply] <;> exact hclear

/-- An exchange resolved with nothing received (R40.7). -/
theorem inv_of_timeout {s : State} (hst : s.st = .done) (hdef : s.buf.map Prod.fst = List.range s.cnt.toNat)
    (hcnt : s.cnt = 0) (hrem : s.rem = 0) (hres : s.result = .timeout) (hclear : s.recordClear) : s.Inv where
  bufDefined := hdef
  cntBound := by simp [hcnt]
  resultNone := by simp [hst, hres]
  idleClear := by simp [hst]
  listeningClear := by simp [hst]
  doneRem _ := hrem
  timeoutEmpty := by simp [hst, hcnt, hres]
  frameInBuf := by simp [State.decodedReply, hres]
  okReply := by simp [hres]
  record := by simp only [State.recordWF, hres]; exact ⟨nofun, fun _ => hclear, nofun, nofun, nofun⟩
  verified := by simp [State.decodedReply, hres]

/-- An exchange resolved on received bytes: what is left to ask is what the record says of them. -/
theorem inv_of_resolved {s : State} (hst : s.st = .done) (hdef : s.buf.map Prod.fst = List.range s.cnt.toNat)
    (hcap : s.cnt.toNat ≤ s.cfg.cap) (hcnt : s.cnt ≠ 0) (hrem : s.rem = 0) (hnone : s.result ≠ .none)
    (htime : s.result ≠ .timeout) (hframe : s.decodedReply → 9 + s.rplen.toNat + 2 ≤ s.cnt.toNat)
    (hok : s.result = .ok → s.rtype = 7 ∧ 1 ≤ s.rplen.toNat ∧ s.bufRead 9 = .ok s.rstatus ∧
      ((s.expmode = .exact ∧ s.rplen = s.explen) ∨ (s.expmode = .atLeast ∧ s.explen.toNat ≤ s.rplen.toNat)))
    (hrec : s.recordWF) (hver : s.cfg.verifyChecksum = true → s.decodedReply → s.csumok = true) : s.Inv where
  bufDefined := hdef
  cntBound := hcap
  resultNone := by simp [hst, hnone]
  idleClear := by simp [hst]
  listeningClear := by simp [hst]
  doneRem _ := hrem
  timeoutEmpty := iff_of_false htime fun h => hcnt h.2
  frameInBuf := hframe
  okReply := hok
  record := hrec
  verified := hver

/-- The invariant speaks of no flag, no presented item and no output. -/
theorem inv_setIo {s : State} (h : s.Inv) (w : BitVec 4) (p : List Presented) (o : Outputs) :
    { s with flags := w, inputs := p, out := o }.Inv :=
  { h with }

/-! ## The verdict EXPIRE latches -/

theorem received_length {s : State} {raw : List Byte} (h : s.received = .ok raw) : raw.length = s.cnt.toNat :=
  (State.bufFrom_ok.1 h).1

theorem received_bufRead {s : State} {raw : List Byte} (h : s.received = .ok raw) {i : Nat} (hi : i < raw.length) :
    s.bufRead i = .ok raw[i] := by
  simpa using (State.bufFrom_ok.1 h).2 i hi

/-- R108, R110: the reason `CHECKSUM` is given only where checksums are verified. -/
theorem verify_of_badFrame_checksum {v : Bool} {raw : List Byte} (h : frameDecode v raw = .badFrame .checksum) :
    v = true := by
  cases v with
  | true => rfl
  | false =>
    simp only [frameDecode, Bool.false_and, Bool.false_eq_true, if_false] at h
    repeat' split at h
    all_goals simp at h

/-- The payload length of a decoded frame fits in `RPLEN` (R74). -/
theorem rplen_toNat {v : Bool} {raw : List Byte} {t : Byte} {p : List Byte} {ck : Bool}
    (h : frameDecode v raw = .ok t p ck) : (BitVec.ofNat 16 p.length).toNat = p.length := by
  obtain ⟨-, -, -, -, hlen, -⟩ := frameDecode_ok h
  have := (be16 raw 7).isLt
  rw [BitVec.toNat_ofNat]
  omega

/-- R40.8: the whole frame of a decoded reply is among the received bytes. -/
theorem frame_le_cnt {s : State} {v : Bool} {raw : List Byte} {t : Byte} {p : List Byte} {ck : Bool}
    (hraw : s.received = .ok raw) (h : frameDecode v raw = .ok t p ck) :
    9 + (BitVec.ofNat 16 p.length).toNat + 2 ≤ s.cnt.toNat := by
  obtain ⟨-, -, -, -, -, hfit, -⟩ := frameDecode_ok h
  rw [rplen_toNat h, ← received_length hraw]
  exact hfit

/-- R32: the status byte of a decoded reply stands at index 9 of `BUF`. -/
theorem bufRead_status {s : State} {v : Bool} {raw : List Byte} {t status : Byte} {p : List Byte} {ck : Bool}
    (hraw : s.received = .ok raw) (h : frameDecode v raw = .ok t (status :: p) ck) : s.bufRead 9 = .ok status := by
  obtain ⟨-, -, -, -, -, hfit, hp, -⟩ := frameDecode_ok h
  have hlt : 9 < raw.length := by simp at hfit; omega
  have hhead : raw[9]? = some status := by
    have := congrArg (·[0]?) hp
    simpa [slice] using this.symm
  rw [received_bufRead hraw hlt]
  rw [List.getElem?_eq_getElem hlt, Option.some.injEq] at hhead
  rw [hhead]

/-- `lengthMeets` as R40.9 says it. -/
theorem expectation_of_lengthMeets {explen l : U16} {mode : ExpMode} (h : lengthMeets explen mode l.toNat = true) :
    (mode = .exact ∧ l = explen) ∨ (mode = .atLeast ∧ explen.toNat ≤ l.toNat) := by
  cases mode with
  | exact => exact .inl ⟨rfl, BitVec.eq_of_toNat_eq (by simpa [lengthMeets] using h)⟩
  | atLeast => exact .inr ⟨rfl, by simpa [lengthMeets] using h⟩

/-- R195: a reply of the wrong type or length, latched. -/
theorem inv_unexpectedReply {s : State} {raw : List Byte} {t : Byte} {p : List Byte} {ck : Bool} {err : ErrInfo}
    (herr : err = .notAck ∨ err = .plen) (hinv : s.Inv) (hst : s.st = .listening) (hcnt : s.cnt ≠ 0)
    (hraw : s.received = .ok raw) (hv : frameDecode s.cfg.verifyChecksum raw = .ok t p ck) :
    { s with
      st := .done, rem := 0, result := .unexpectedReply, errinfo := err
      rtype := t, rplen := BitVec.ofNat 16 p.length, csumok := ck }.Inv := by
  obtain ⟨-, -, -, -, -, hstatus, -⟩ := hinv.listeningClear hst
  obtain ⟨-, -, -, -, -, -, -, -, hver⟩ := frameDecode_ok hv
  have hframe := frame_le_cnt hraw hv
  exact inv_of_resolved rfl hinv.bufDefined hinv.cntBound hcnt rfl nofun nofun (fun _ => hframe) nofun
    ⟨nofun, nofun, nofun, nofun, fun _ => ⟨herr, hstatus⟩⟩ (fun h _ => hver h)

/-- R130, R195: every verdict on the received bytes is latched in a record that meets R29 to R31 and R40. -/
theorem inv_latchVerdict {s : State} {raw : List Byte} (hinv : s.Inv) (hst : s.st = .listening) (hcnt : s.cnt ≠ 0)
    (hraw : s.received = .ok raw) : (s.latchVerdict (frameDecode s.cfg.verifyChecksum raw)).Inv := by
  obtain ⟨-, hres, herr, htype, hplen, hstatus, hck⟩ := hinv.listeningClear hst
  rcases s.latchVerdict_cases (frameDecode s.cfg.verifyChecksum raw) with
    ⟨r, hv, e⟩ | ⟨t, p, ck, hv, -, e⟩ | ⟨p, ck, hv, -, e⟩ | ⟨status, p, ck, hv, hl, e⟩ <;> rw [e]
  · have hreason : r.errinfo = .marker ∨ r.errinfo = .short ∨ r.errinfo = .len ∨
        (r.errinfo = .checksum ∧ s.cfg.verifyChecksum = true) := by
      cases r with
      | checksum => exact .inr (.inr (.inr ⟨rfl, verify_of_badFrame_checksum hv⟩))
      | marker | short | len => simp [BadReason.errinfo]
    exact inv_of_resolved rfl hinv.bufDefined hinv.cntBound hcnt rfl nofun nofun nofun nofun
      ⟨nofun, nofun, nofun, fun _ => ⟨hreason, htype, hplen, hstatus, hck⟩, nofun⟩ nofun
  · exact inv_unexpectedReply (.inl rfl) hinv hst hcnt hraw hv
  · exact inv_unexpectedReply (.inr rfl) hinv hst hcnt hraw hv
  · have hlen : (BitVec.ofNat 16 (p.length + 1)).toNat = p.length + 1 := rplen_toNat hv
    rw [← hlen] at hl
    obtain ⟨-, -, -, -, -, -, -, -, hver⟩ := frameDecode_ok hv
    have hframe := frame_le_cnt hraw hv
    have hread := bufRead_status hraw hv
    exact inv_of_resolved rfl hinv.bufDefined hinv.cntBound hcnt rfl nofun nofun (fun _ => hframe)
      (fun _ => ⟨rfl, by dsimp only; omega, hread, expectation_of_lengthMeets hl⟩)
      ⟨nofun, nofun, fun _ => herr, nofun, nofun⟩ (fun h _ => hver h)

/-! ## Reset -/

/-- Settles O2: the reset state is idle with everything clear. -/
theorem resetStateMeetsInvariant : Obligations.ResetStateMeetsInvariant :=
  inv_of_idle rfl rfl rfl rfl rfl rfl rfl ⟨rfl, rfl, rfl, rfl, rfl⟩

/-- Settles O1: RESET's fields are those of `State.resetEvent`, and `periodInputs` keeps RESET alone. -/
theorem resetGivesResetValues : Obligations.ResetGivesResetValues :=
  ⟨fun _ => ⟨_, rfl, rfl, rfl, rfl, rfl, rfl, rfl, rfl, rfl, rfl, rfl, rfl, rfl, rfl⟩, fun _ hreset => if_pos hreset⟩

/-! ## Every event keeps the invariant -/

theorem inv_storeByte {s : State} (b : Byte) (hinv : s.Inv) (hst : s.st = .listening) (hc : s.cnt.toNat < s.cfg.cap) :
    (s.storeByte b).Inv := by
  obtain ⟨hrem, hres, hclear⟩ := hinv.listeningClear hst
  refine inv_of_listening hst (storeByte_bufDefined b hinv.bufDefined hc) ?_ hrem hres hclear
  rw [State.storeByte_cnt_toNat b hc]
  exact hc

theorem inv_raise {s : State} (f : Flag) (hinv : s.Inv) : (s.raise f).Inv :=
  inv_setIo hinv _ s.inputs s.out

theorem inv_rxByte {s : State} (b : Byte) (hinv : s.Inv) : (s.rxByte b).Inv := by
  rcases s.rxByte_cases b with ⟨-, e⟩ | ⟨hst, hc, e⟩ | ⟨-, -, e⟩ <;> rw [e]
  · exact inv_raise _ hinv
  · exact inv_storeByte b hinv hst hc
  · exact inv_raise _ hinv

theorem inv_beginExchange {s : State} (d n : U16) (mode : ExpMode) (hinv : s.Inv) : (s.beginExchange d n mode).Inv := by
  rcases s.beginExchange_cases d n mode with ⟨-, e⟩ | ⟨-, hd, e⟩ | ⟨-, -, e⟩ <;> rw [e]
  · exact inv_raise _ hinv
  · have hrem : 1 ≤ d.toNat := Nat.one_le_iff_ne_zero.2 fun h => hd (BitVec.eq_of_toNat_eq h)
    exact inv_of_listening rfl rfl (Nat.zero_le _) hrem rfl ⟨rfl, rfl, rfl, rfl, rfl⟩
  · exact inv_of_timeout rfl rfl rfl rfl rfl ⟨rfl, rfl, rfl, rfl, rfl⟩

theorem inv_releaseResult {s : State} (hinv : s.Inv) : s.releaseResult.Inv := by
  rcases s.releaseResult_cases with ⟨-, e⟩ | ⟨-, e⟩ | ⟨-, e⟩ <;> rw [e]
  · exact inv_of_idle rfl rfl rfl rfl rfl rfl rfl ⟨rfl, rfl, rfl, rfl, rfl⟩
  · exact inv_raise _ hinv
  · exact hinv

theorem inv_resetEvent (s : State) : s.resetEvent.Inv :=
  inv_of_idle rfl rfl rfl rfl rfl rfl rfl ⟨rfl, rfl, rfl, rfl, rfl⟩

theorem inv_expire {s t : State} (hinv : s.Inv) (hst : s.st = .listening) (h : s.expire = .next t) : t.Inv := by
  rcases s.expire_cases with ⟨hcnt, e⟩ | ⟨hcnt, raw, hraw, e⟩ | ⟨-, f, -, e⟩ <;> rw [e] at h <;> cases h
  · obtain ⟨-, -, hclear⟩ := hinv.listeningClear hst
    exact inv_of_timeout rfl hinv.bufDefined hcnt rfl rfl hclear
  · exact inv_latchVerdict hinv hst hcnt hraw

theorem inv_tickEvent {s t : State} (hinv : s.Inv) (h : s.tickEvent = .next t) : t.Inv := by
  rcases s.tickEvent_cases with ⟨-, e⟩ | ⟨hst, hrem, e⟩ | ⟨hst, -, e⟩ <;> rw [e] at h
  · cases h
    exact hinv
  · cases h
    obtain ⟨-, hres, hclear⟩ := hinv.listeningClear hst
    refine inv_of_listening hst hinv.bufDefined hinv.cntBound ?_ hres hclear
    show 1 ≤ (s.rem - 1).toNat
    bv_omega
  · exact inv_expire hinv hst h

theorem exec_keeps_inv {i : Instr} {s t : State} (hinv : s.Inv) (h : exec i s = .next t) : t.Inv := by
  cases i with
  | frameCommand | frameData | frameAck | frameEnd | frameReserved | rx =>
    rw [eq_of_exec_received rfl h]
    exact inv_setIo (inv_rxByte _ hinv) _ _ _
  | beginExchange d n mode => cases h; exact inv_beginExchange d n mode hinv
  | release => cases h; exact inv_releaseResult hinv
  | tick => exact inv_tickEvent hinv h
  | reset => cases h; exact inv_resetEvent s
  | _ => cases h; exact inv_setIo hinv _ _ _

/-- A step is its event on the state fetched, or nothing but the fetch; so what the fetch and every event keep, every
step keeps (R8). -/
theorem step_keeps {P : State → Prop} (hfetch : ∀ (s : State) p o, P s → P { s with inputs := p, out := o })
    (hexec : ∀ i s t, P s → exec i s = .next t → P t) {s t : State} (hs : P s) (h : step s = .next t) : P t := by
  rcases s.fetch_cases with ⟨-, e⟩ | ⟨p, rest, r, -, -, e⟩ | ⟨p, rest, i, left, -, -, e⟩ <;> simp only [step, e] at h
  · cases h; exact hfetch s _ _ hs
  · cases h; exact hfetch s _ _ hs
  · exact hexec i _ t (hfetch s _ _ hs) h

/-- Settles O34: the fetch touches nothing the invariant speaks of, and every event keeps it. -/
theorem everyStepKeepsTheInvariant : Obligations.EveryStepKeepsTheInvariant := fun _ _ hinv h =>
  step_keeps (fun s p o hs => inv_setIo hs s.flags p o) (fun _ _ _ => exec_keeps_inv) hinv h

/-! ## The canonical form of `BUF` -/

theorem exec_keeps_wf {i : Instr} {s t : State} (hwf : s.buf.wf) (h : exec i s = .next t) : t.buf.wf := by
  cases i with
  | frameCommand | frameData | frameAck | frameEnd | frameReserved | rx =>
    rw [eq_of_exec_received rfl h]
    exact State.receiveChunk_wf [_] hwf
  | beginExchange d n mode =>
    cases h
    rcases s.beginExchange_cases d n mode with ⟨-, e⟩ | ⟨-, -, e⟩ | ⟨-, -, e⟩ <;> rw [e]
    exacts [hwf, .nil, .nil]
  | release =>
    cases h
    rcases s.releaseResult_cases with ⟨-, e⟩ | ⟨-, e⟩ | ⟨-, e⟩ <;> rw [e]
    exacts [.nil, hwf, hwf]
  | tick =>
    obtain ⟨-, hbuf, -⟩ := State.tickEvent_frame h
    rwa [hbuf]
  | reset => cases h; exact .nil
  | _ => cases h; exact hwf

/-- Settles O36: a write keeps the form, and the empty list has it. -/
theorem everyStepKeepsBufCanonical : Obligations.EveryStepKeepsBufCanonical := fun _ _ hwf h =>
  step_keeps (P := fun s => s.buf.wf) (fun _ _ _ hs => hs) (fun _ _ _ => exec_keeps_wf) hwf h

/-! ## The reply payload window -/

/-- Settles O31: by R40.8 the payload of a decoded frame lies below `CNT`, where `BUF` is defined (R24). -/
theorem replyWindowReadsThePayload : Obligations.ReplyWindowReadsThePayload := by
  intro s hinv
  refine ⟨fun i hdec hi => ?inside, fun hok => ?status, fun i hout => ?outside⟩
  case inside =>
    have hframe := hinv.frameInBuf hdec
    have hraw := State.received_eq hinv.bufDefined hinv.cntBound
    have hlt : 9 + i < (s.buf.map Prod.snd).length := by rw [received_length hraw]; omega
    have hread := received_bufRead hraw hlt
    exact ⟨_, hread, by rw [State.rpay, if_pos ⟨hdec, hi⟩, hread]⟩
  case status =>
    obtain ⟨-, hlen, hread, -⟩ := hinv.okReply hok
    rw [State.rpay, if_pos ⟨.inl hok, hlen⟩, hread]
  case outside =>
    refine if_neg fun ⟨hdec, hi⟩ => ?_
    rcases hout with hnot | hge
    · exact hnot hdec
    · omega

/-! ## The counters: what each event leaves in `CNT` and `REM` -/

/-- R22, R124: a received byte advances `CNT` in `LISTENING`, up to the capacity. -/
theorem rxByte_cnt {s : State} (b : Byte) (hc : s.cnt.toNat ≤ s.cfg.cap) :
    (s.rxByte b).cnt.toNat = if s.st = .listening then min s.cfg.cap (s.cnt.toNat + 1) else s.cnt.toNat := by
  rcases s.rxByte_cases b with ⟨hst, e⟩ | ⟨hst, hlt, e⟩ | ⟨hst, hge, e⟩ <;> rw [e]
  · rw [if_neg hst]
    rfl
  · rw [if_pos hst, State.storeByte_cnt_toNat b hlt]
    omega
  · rw [if_pos hst, State.raise_cnt]
    omega

theorem exec_received_cnt {i : Instr} {b : Byte} {s t : State} (hb : receivedByte i = some b)
    (hc : s.cnt.toNat ≤ s.cfg.cap) (h : exec i s = .next t) :
    t.cnt.toNat =
      if s.st = .listening ∧ receivedByte i ≠ none then min s.cfg.cap (s.cnt.toNat + 1) else s.cnt.toNat := by
  rw [eq_of_exec_received hb h]
  simpa [hb] using rxByte_cnt b hc

/-- Settles O44, event by event. -/
theorem cntAdvancesAndSaturates : Obligations.CntAdvancesAndSaturates := by
  intro i s t hinv h
  cases i with
  | frameCommand | frameData | frameAck | frameEnd | frameReserved | rx => exact exec_received_cnt rfl hinv.cntBound h
  | beginExchange d n mode =>
    cases h
    rcases s.beginExchange_cases d n mode with ⟨hst, e⟩ | ⟨hst, -, e⟩ | ⟨hst, -, e⟩ <;> simp [e, hst]
  | release =>
    cases h
    rcases s.releaseResult_cases with ⟨hst, e⟩ | ⟨hst, e⟩ | ⟨hst, e⟩ <;> simp [e, hst]
  | tick =>
    obtain ⟨-, -, hcnt, -⟩ := State.tickEvent_frame h
    simp [hcnt, receivedByte, rowBytes]
  | reset => cases h; rfl
  | _ => cases h; simp [receivedByte, rowBytes]

theorem expire_done {s t : State} (h : s.expire = .next t) : t.st = .done ∧ t.rem = 0 := by
  rcases s.expire_cases with ⟨-, e⟩ | ⟨-, raw, -, e⟩ | ⟨-, f, -, e⟩ <;> rw [e] at h <;> cases h
  · exact ⟨rfl, rfl⟩
  · obtain ⟨-, -, -, -, -, -, -, -, hst, hrem, -⟩ := s.latchVerdict_frame (frameDecode s.cfg.verifyChecksum raw)
    exact ⟨hst, hrem⟩

/-- R26, R126: in `LISTENING` a tick takes 1 from `REM`; the deadline tick takes the last. -/
theorem tickEvent_rem {s t : State} (h : s.tickEvent = .next t) :
    t.rem.toNat = if s.st = .listening then s.rem.toNat - 1 else s.rem.toNat := by
  rcases s.tickEvent_cases with ⟨hst, e⟩ | ⟨hst, hrem, e⟩ | ⟨hst, hrem, e⟩ <;> rw [e] at h
  · cases h
    rw [if_neg hst]
  · cases h
    rw [if_pos hst]
    show (s.rem - 1).toNat = _
    bv_omega
  · obtain ⟨-, hzero⟩ := expire_done h
    rw [if_pos hst, hzero]
    exact (Nat.sub_eq_zero_of_le hrem).symm

/-- Settles O45, event by event; RELEASE in `DONE` finds `REM = 0` (R40.6). -/
theorem remCountsTicksOnlyWhileListening : Obligations.RemCountsTicksOnlyWhileListening := by
  intro i s t hinv h
  cases i with
  | frameCommand | frameData | frameAck | frameEnd | frameReserved | rx =>
    obtain ⟨m, c, w, rfl⟩ := exec_received_frame rfl h
    rfl
  | beginExchange d n mode =>
    cases h
    rcases s.beginExchange_cases d n mode with ⟨hst, e⟩ | ⟨hst, -, e⟩ | ⟨hst, rfl, e⟩ <;> rw [e]
    exacts [(if_pos hst).symm, (if_neg hst).symm, (if_neg hst).symm]
  | release =>
    cases h
    rcases s.releaseResult_cases with ⟨hst, e⟩ | ⟨-, e⟩ | ⟨-, e⟩ <;> rw [e]
    · rw [hinv.doneRem hst]
    · rfl
  | tick => exact tickEvent_rem h
  | reset => cases h; rfl
  | _ => cases h; rfl

/-! ## The expectation, the parameters and what is presented -/

/-- Settles O46, event by event. -/
theorem expectationAndParametersAreKept : Obligations.ExpectationAndParametersAreKept := by
  intro i s t h
  cases i with
  | frameCommand | frameData | frameAck | frameEnd | frameReserved | rx =>
    obtain ⟨m, c, w, rfl⟩ := exec_received_frame rfl h
    exact ⟨rfl, rfl, rfl⟩
  | beginExchange d n mode =>
    cases h
    rcases s.beginExchange_cases d n mode with ⟨hst, e⟩ | ⟨hst, -, e⟩ | ⟨hst, -, e⟩ <;>
      simp [e, hst, laterBytes, rowBytes, leftOver]
  | release =>
    cases h
    rcases s.releaseResult_cases with ⟨hst, e⟩ | ⟨hst, e⟩ | ⟨hst, e⟩ <;>
      simp [e, hst, laterBytes, rowBytes, leftOver]
  | tick =>
    obtain ⟨hcfg, -, -, -, hin, -, hlen, hmode⟩ := State.tickEvent_frame h
    exact ⟨hcfg, hin, by rw [hlen, hmode]⟩
  | _ => cases h; exact ⟨rfl, rfl, rfl⟩

/-! ## The sticky flags -/

/-- R124, R125: the flag a received byte sets, if any. -/
theorem rxByte_flag (s : State) (b : Byte) (f : Flag) :
    (s.rxByte b).flag f = true ↔ s.flag f = true ∨
      (f = .ovf ∧ s.st = .listening ∧ s.cfg.cap ≤ s.cnt.toNat) ∨ (f = .stray ∧ s.st ≠ .listening) := by
  rcases s.rxByte_cases b with ⟨hst, e⟩ | ⟨hst, hlt, e⟩ | ⟨hst, hge, e⟩ <;> rw [e]
  · simp [State.flag, hst, or_comm]
  · simp [State.flag, hst, Nat.not_le.2 hlt]
  · simp [State.flag, hst, hge, or_comm]

/-- The four flags after an instruction of the receive port. -/
theorem exec_received_flags {i : Instr} {b : Byte} {s t : State} (hb : receivedByte i = some b)
    (hc : s.cnt.toNat ≤ s.cfg.cap) (h : exec i s = .next t) :
    (t.flag .ovf = true ↔ s.flag .ovf = true ∨
      (s.st = .listening ∧ s.cnt.toNat = s.cfg.cap ∧ receivedByte i ≠ none)) ∧
    (t.flag .stray = true ↔ s.flag .stray = true ∨ (s.st ≠ .listening ∧ receivedByte i ≠ none)) ∧
    (t.flag .busyerr = true ↔ s.flag .busyerr = true) ∧ (t.flag .illop = true ↔ s.flag .illop = true) := by
  have hflag : ∀ f, t.flag f = (s.rxByte b).flag f := fun f => by rw [eq_of_exec_received hb h]; rfl
  have hfull : s.cfg.cap ≤ s.cnt.toNat ↔ s.cnt.toNat = s.cfg.cap := ⟨hc.antisymm, fun h => h.ge⟩
  simp [hflag, rxByte_flag, hb, hfull]

/-- Settles O39, event by event: `raise`, `lowerFlag` and CLRF on the four bits (R33). -/
theorem flagsAreSetAndClearedByTheTable : Obligations.FlagsAreSetAndClearedByTheTable := by
  intro i s t hinv h
  cases i with
  | frameCommand | frameData | frameAck | frameEnd | frameReserved | rx => exact exec_received_flags rfl hinv.cntBound h
  | beginExchange d n mode =>
    cases h
    rcases s.beginExchange_cases d n mode with ⟨hst, e⟩ | ⟨hst, -, e⟩ | ⟨hst, -, e⟩ <;>
      simp [e, hst, State.flag, receivedByte, rowBytes]
  | release =>
    cases h
    rcases s.releaseResult_cases with ⟨hst, e⟩ | ⟨hst, e⟩ | ⟨hst, e⟩ <;>
      simp [e, hst, State.flag, receivedByte, rowBytes]
  | tick =>
    obtain ⟨-, -, -, hflags, -⟩ := State.tickEvent_frame h
    simp [hflags, State.flag, receivedByte, rowBytes]
  | clrf | reset =>
    cases h
    have hclear : ∀ f, testFlag f 0#4 = false := testFlag_zero
    simp [State.flag, hclear]
  | _ => cases h; simp [State.flag, receivedByte, rowBytes]

/-- Settles O50: by the table of R33 only a byte received on a full buffer turns `OVF` on. -/
theorem overflowMeansTheBufferIsFull : Obligations.OverflowMeansTheBufferIsFull := by
  intro i s t hinv h hoff hon
  obtain ⟨hst, hfull, hrecv⟩ : s.st = .listening ∧ s.cnt.toNat = s.cfg.cap ∧ receivedByte i ≠ none := by
    have hset := (flagsAreSetAndClearedByTheTable i s t hinv h).1.1 hon
    cases i with
    | clrf | reset => exact hset.elim
    | beginExchange => simp [hoff] at hset
    | _ => simpa [hoff] using hset
  obtain ⟨b, hb⟩ := Option.ne_none_iff_exists'.1 hrecv
  rw [eq_of_exec_received hb h, rxByte_eq_raise_ovf b hst hfull.ge]
  exact ⟨hst, hfull⟩

/-! ## `DONE_IRQ` -/

/-- R126, R140: a tick enters `DONE` exactly at the deadline. -/
theorem tickEvent_st {s t : State} (hinv : s.Inv) (h : s.tickEvent = .next t) :
    t.st = if s.st = .listening ∧ s.rem = 1 then .done else s.st := by
  rcases s.tickEvent_cases with ⟨hst, e⟩ | ⟨hst, hrem, e⟩ | ⟨hst, hrem, e⟩ <;> rw [e] at h
  · cases h
    rw [if_neg fun hat => hst hat.1]
  · cases h
    exact (if_neg fun hat => by simp [hat.2] at hrem).symm
  · obtain ⟨hpos, -⟩ := hinv.listeningClear hst
    have hone : s.rem = 1 := BitVec.eq_of_toNat_eq (le_antisymm hrem hpos)
    rw [if_pos ⟨hst, hone⟩]
    exact (expire_done h).1

/-- Settles O47, event by event. -/
theorem doneIrqRisesAndFalls : Obligations.DoneIrqRisesAndFalls := by
  intro i s t hinv h
  cases i with
  | frameCommand | frameData | frameAck | frameEnd | frameReserved | rx =>
    obtain ⟨m, c, w, rfl⟩ := exec_received_frame rfl h
    simp [State.doneIrq]
  | beginExchange d n mode =>
    cases h
    rcases s.beginExchange_cases d n mode with ⟨hst, e⟩ | ⟨hst, hd, e⟩ | ⟨hst, rfl, e⟩ <;> rw [e]
    · simp [State.doneIrq, hst]
    · have hne : d ≠ 0#16 := hd
      simp [State.doneIrq, hne]
    · have hidle : s.st ≠ .done → s.st = .idle := by cases hs : s.st <;> simp_all
      simpa [State.doneIrq] using fun hout => hidle hout
  | release =>
    cases h
    rcases s.releaseResult_cases with ⟨hst, e⟩ | ⟨hst, e⟩ | ⟨hst, e⟩ <;> simp [e, hst, State.doneIrq]
  | tick =>
    have hst := tickEvent_st hinv h
    by_cases hat : s.st = .listening ∧ s.rem = 1
    · simp [State.doneIrq, hst, hat]
    · rw [if_neg hat] at hst
      have hirq : t.doneIrq = s.doneIrq := by rw [State.doneIrq, hst, State.doneIrq]
      exact ⟨fun hoff => by simpa [hirq, hoff] using hat, fun hon => by simp [hirq, hon]⟩
  | reset => cases h; simp [State.doneIrq]
  | _ => cases h; simp [State.doneIrq]

/-! ## What no event reads: the flags, and `BUF` beyond `CNT` -/

/-- The state with another flag word and another buffer. -/
def overlay (s : State) (w : BitVec 4) (m : Memory) : State := { s with flags := w, buf := m }

/-- What a change of flags and buffer leads to: `t'` is `t` but for flags and buffer, and each of the two differs only
where it differed before. -/
def Follows (s : State) (w : BitVec 4) (m : Memory) (t t' : State) : Prop :=
  ∃ w' m', t' = overlay t w' m' ∧ (w = s.flags → w' = t.flags) ∧ (m = s.buf → m' = t.buf)

/-- `BUF[0..n)` reads the same in two memories. -/
def AgreeBelow (n : Nat) (m m' : Memory) : Prop := ∀ k, k < n → m.read k = m'.read k

theorem follows_of {s t : State} {w : BitVec 4} {m : Memory} (f : BitVec 4 → BitVec 4) (g : Memory → Memory)
    (hflags : f s.flags = t.flags) (hbuf : g s.buf = t.buf) : Follows s w m t (overlay t (f w) (g m)) :=
  ⟨_, _, rfl, fun e => e ▸ hflags, fun e => e ▸ hbuf⟩

theorem bufFrom_overlay {s : State} (w : BitVec 4) {m : Memory} {c i n : Nat} (hm : AgreeBelow c m s.buf)
    (hle : i + n ≤ c) : (overlay s w m).bufFrom i n = s.bufFrom i n := by
  induction n generalizing i with
  | zero => rfl
  | succ n ih =>
    have hread : (overlay s w m).bufRead i = s.bufRead i := by
      simp only [State.bufRead, overlay, hm i (by omega)]
    simp only [State.bufFrom, hread, ih (i := i + 1) (by omega)]

theorem received_overlay {s : State} (w : BitVec 4) {m : Memory} (hm : AgreeBelow s.cnt.toNat m s.buf) :
    (overlay s w m).received = s.received :=
  bufFrom_overlay w hm (Nat.zero_add _).le

theorem latchVerdict_overlay (s : State) (w : BitVec 4) (m : Memory) (v : Verdict) :
    (overlay s w m).latchVerdict v = overlay (s.latchVerdict v) w m := by
  cases v with
  | badFrame r => rfl
  | ok t p ck =>
    by_cases ht : t = ptAck
    · cases p with
      | nil => simp [State.latchVerdict, overlay, ht]
      | cons status p =>
        cases hl : lengthMeets s.explen s.expmode (p.length + 1) <;> simp [State.latchVerdict, overlay, ht, hl]
    · simp [State.latchVerdict, overlay, ht]

theorem expire_overlay {s t : State} (w : BitVec 4) {m : Memory} (hm : AgreeBelow s.cnt.toNat m s.buf)
    (h : s.expire = .next t) :
    (overlay s w m).expire = .next (overlay t w m) := by
  rcases s.expire_cases with ⟨hcnt, e⟩ | ⟨hcnt, raw, hraw, e⟩ | ⟨-, f, -, e⟩ <;> rw [e] at h <;> cases h
  · exact if_pos hcnt
  · rw [State.expire, if_neg (by exact hcnt), (received_overlay w hm).trans hraw]
    exact congrArg Host.Outcome.next (latchVerdict_overlay s w m _)

/-- R24, R33: a tick reads no flag and no byte of `BUF` beyond `CNT`. -/
theorem tickEvent_overlay {s t : State} (w : BitVec 4) {m : Memory} (hm : AgreeBelow s.cnt.toNat m s.buf)
    (h : s.tickEvent = .next t) :
    (overlay s w m).tickEvent = .next (overlay t w m) := by
  rcases s.tickEvent_cases with ⟨hst, e⟩ | ⟨hst, hrem, e⟩ | ⟨hst, hrem, e⟩ <;> rw [e] at h
  · cases h
    exact if_neg hst
  · cases h
    exact (if_pos hst).trans (if_pos hrem)
  · have hdeadline : (overlay s w m).tickEvent = (overlay s w m).expire :=
      (if_pos hst).trans (if_neg (Nat.not_lt.2 hrem))
    exact hdeadline.trans (expire_overlay w hm h)

theorem rxByte_follows (s : State) (w : BitVec 4) (m : Memory) (b : Byte) :
    Follows s w m (s.rxByte b) ((overlay s w m).rxByte b) := by
  unfold State.rxByte overlay
  split
  · split
    · exact follows_of id (·.write s.cnt.toNat b) rfl rfl
    · exact follows_of (raiseFlag .ovf) id rfl rfl
  · exact follows_of (raiseFlag .stray) id rfl rfl

theorem beginExchange_follows (s : State) (w : BitVec 4) (m : Memory) (d n : U16) (mode : ExpMode) :
    Follows s w m (s.beginExchange d n mode) ((overlay s w m).beginExchange d n mode) := by
  unfold State.beginExchange State.beginAccepted overlay
  split
  · exact follows_of (raiseFlag .busyerr) id rfl rfl
  · split <;> exact follows_of (lowerFlag .ovf) (fun _ => []) rfl rfl

theorem releaseResult_follows (s : State) (w : BitVec 4) (m : Memory) :
    Follows s w m s.releaseResult (overlay s w m).releaseResult := by
  unfold State.releaseResult overlay
  dsimp only
  split
  · exact follows_of id (fun _ => []) rfl rfl
  · exact follows_of (raiseFlag .busyerr) id rfl rfl
  · exact follows_of id id rfl rfl

/-- R24, R33: an event reads no flag and no byte of `BUF` beyond `CNT`. -/
theorem exec_follows {i : Instr} {s t : State} (w : BitVec 4) {m : Memory} (hm : AgreeBelow s.cnt.toNat m s.buf)
    (h : exec i s = .next t) :
    ∃ t', exec i (overlay s w m) = .next t' ∧ Follows s w m t t' := by
  cases i with
  | frameCommand | frameData | frameAck | frameEnd | frameReserved | rx =>
    obtain ⟨w', m', e, hw, hm'⟩ := rxByte_follows s w m _
    rw [eq_of_exec_received rfl h, exec_received _ rfl, e]
    exact ⟨_, rfl, w', m', rfl, hw, hm'⟩
  | beginExchange d n mode => cases h; exact ⟨_, rfl, beginExchange_follows s w m d n mode⟩
  | release => cases h; exact ⟨_, rfl, releaseResult_follows s w m⟩
  | tick =>
    obtain ⟨-, hbuf, -, hflags, -⟩ := State.tickEvent_frame h
    exact ⟨_, tickEvent_overlay w hm h, w, m, rfl, (·.trans hflags.symm), (·.trans hbuf.symm)⟩
  | clrf => cases h; exact ⟨_, rfl, follows_of (fun _ => 0) id rfl rfl⟩
  | op6 | op7 => cases h; exact ⟨_, rfl, follows_of (raiseFlag .illop) id rfl rfl⟩
  | reset => cases h; exact ⟨_, rfl, follows_of (fun _ => 0) (fun _ => []) rfl rfl⟩
  | _ => cases h; exact ⟨_, rfl, follows_of id id rfl rfl⟩

/-- Settles O40: with the buffer left as it is, only the flags can differ afterwards. -/
theorem flagsInfluenceNothing : Obligations.FlagsInfluenceNothing := by
  intro i s t w h
  obtain ⟨t', hexec, w', m', rfl, -, hbuf⟩ := exec_follows w (m := s.buf) (fun _ _ => rfl) h
  obtain rfl := hbuf rfl
  exact ⟨w', hexec⟩

/-- Settles O41: with the flags left as they are, only the buffer can differ afterwards. -/
theorem bufBeyondCntIsNeverRead : Obligations.BufBeyondCntIsNeverRead := by
  intro i s t m hm h
  obtain ⟨t', hexec, w', m', rfl, hflags, -⟩ := exec_follows s.flags hm h
  obtain rfl := hflags rfl
  exact ⟨m', hexec⟩

end Sys2Proof.Proofs.Registers
end

section
/-! What `BUF` and the record keep over all events: the statements of 20_memory.md. -/

open Sys2Proof Sys2Proof.Machine

namespace Sys2Proof.Proofs.Buffer

open Sys2Proof.Proofs.Scope Sys2Proof.Proofs.Registers

/-! ## The resolved record -/

/-- In `DONE` an event that is no way out of it (R204) and no RESET reaches `FLAGS`, what is presented and the outputs
alone. -/
theorem exec_done_frame {i : Instr} {s t : State} (hst : s.st = .done) (h : exec i s = .next t)
    (hbegin : ∀ d n mode, i ≠ .beginExchange d n mode) (hrelease : i ≠ .release) (hreset : i ≠ .reset) :
    ∃ w p o, t = { s with flags := w, inputs := p, out := o } := by
  have hnot : s.st ≠ .listening := by simp [hst]
  cases i with
  | frameCommand | frameData | frameAck | frameEnd | frameReserved | rx =>
    rw [eq_of_exec_received rfl h, rxByte_eq_raise_stray _ hnot]
    exact ⟨_, _, _, rfl⟩
  | beginExchange d n mode => exact absurd rfl (hbegin d n mode)
  | release => exact absurd rfl hrelease
  | reset => exact absurd rfl hreset
  | tick =>
    have hsame : exec .tick s = .next s := if_neg hnot
    cases hsame.symm.trans h
    exact ⟨_, _, _, rfl⟩
  | _ => cases h; exact ⟨_, _, _, rfl⟩

/-- Settles O42: the record, `BUF` and the reply window read none of the three fields that can change. -/
theorem resolvedRecordIsStable : Obligations.ResolvedRecordIsStable := by
  intro i s t hst h hbegin hrelease hreset
  obtain ⟨w, p, o, rfl⟩ := exec_done_frame hst h hbegin hrelease hreset
  exact ⟨hst, rfl, rfl, rfl, rfl, rfl, rfl, rfl, rfl, rfl, rfl, fun _ => rfl, fun _ => rfl⟩

/-! ## The bytes of `BUF` -/

/-- Where `BUF` lists no byte, no index has a value (log 7). -/
theorem bufRead_ne_ok_of_nil {s : State} (h : s.buf = []) (k : Nat) (b : Byte) : s.bufRead k ≠ .ok b := by
  simp [State.bufRead_ok, h]

/-- R50, R141: a received byte reaches no index but the write position, and none outside `LISTENING`. -/
theorem rxByte_bufRead {s : State} (b : Byte) {k : Nat} (hk : s.st ≠ .listening ∨ k ≠ s.cnt.toNat) :
    (s.rxByte b).bufRead k = s.bufRead k := by
  rcases s.rxByte_cases b with ⟨-, e⟩ | ⟨hst, -, e⟩ | ⟨-, -, e⟩ <;> rw [e]
  · rfl
  · exact storeByte_bufRead_of_ne b (hk.resolve_left (· hst))
  · rfl

theorem exec_received_bufRead {i : Instr} {b : Byte} {s t : State} (hb : receivedByte i = some b)
    (h : exec i s = .next t) {k : Nat} (hk : s.st ≠ .listening ∨ k ≠ s.cnt.toNat ∨ receivedByte i = none) :
    t.bufRead k = s.bufRead k := by
  rw [eq_of_exec_received hb h]
  exact rxByte_bufRead b (by simpa [hb] using hk)

/-- Settles O43, event by event. -/
theorem bufChangesOnlyAtTheWritePosition : Obligations.BufChangesOnlyAtTheWritePosition := by
  intro i s t h
  cases i with
  | frameCommand | frameData | frameAck | frameEnd | frameReserved | rx =>
    exact ⟨False.elim, fun _ _ hk => exec_received_bufRead rfl h hk⟩
  | beginExchange d n mode =>
    cases h
    rcases s.beginExchange_cases d n mode with ⟨hst, e⟩ | ⟨hst, -, e⟩ | ⟨hst, -, e⟩ <;> rw [e]
    · exact ⟨fun hempty => absurd hst hempty, fun _ _ _ => rfl⟩
    · exact ⟨fun _ => bufRead_ne_ok_of_nil rfl, fun hkept => absurd hst hkept⟩
    · exact ⟨fun _ => bufRead_ne_ok_of_nil rfl, fun hkept => absurd hst hkept⟩
  | release =>
    cases h
    rcases s.releaseResult_cases with ⟨hst, e⟩ | ⟨hst, e⟩ | ⟨hst, e⟩ <;> rw [e]
    · exact ⟨fun _ => bufRead_ne_ok_of_nil rfl, fun hkept => absurd hst hkept⟩
    · exact ⟨fun hempty => by simp [hst] at hempty, fun _ _ _ => rfl⟩
    · exact ⟨fun hempty => by simp [hst] at hempty, fun _ _ _ => rfl⟩
  | tick =>
    obtain ⟨hcfg, hbuf, -⟩ := State.tickEvent_frame h
    exact ⟨False.elim, fun _ k _ => State.bufRead_congr hcfg hbuf k⟩
  | reset =>
    cases h
    exact ⟨fun _ => bufRead_ne_ok_of_nil rfl, fun hkept => absurd trivial hkept⟩
  | _ =>
    cases h
    exact ⟨False.elim, fun _ _ _ => rfl⟩

end Sys2Proof.Proofs.Buffer
end

section
/-! The decoder against the encoder, what stands at the head of a chunk, the read port and the reserved operations: the
statements of 30_encoding.md. -/

open Sys2Proof Sys2Proof.Machine

namespace Sys2Proof.Proofs.Encoding

/-! ## The FRAME rows -/

/-- R80, R81: the FRAME row of a packet type, one case for each defined type and one for all others. -/
theorem frameOfType_cases (t : Byte) (a : U32) (l : U16) (body : List Byte) :
    frameOfType t a l body = .frameCommand a l body ∨ frameOfType t a l body = .frameData a l body ∨
    frameOfType t a l body = .frameAck a l body ∨ frameOfType t a l body = .frameEnd a l body ∨
    (definedTypes.contains t = false ∧ frameOfType t a l body = .frameReserved t a l body) := by
  by_cases h1 : t = ptCommand
  · subst h1; exact .inl rfl
  by_cases h2 : t = ptData
  · subst h2; exact .inr (.inl rfl)
  by_cases h7 : t = ptAck
  · subst h7; exact .inr (.inr (.inl rfl))
  by_cases h8 : t = ptEnd
  · subst h8; exact .inr (.inr (.inr (.inl rfl)))
  · exact .inr (.inr (.inr (.inr (by simp [definedTypes, frameOfType, h1, h2, h7, h8]))))

theorem frameOfType_reserved {t : Byte} (h : definedTypes.contains t = false) (a : U32) (l : U16) (body : List Byte) :
    frameOfType t a l body = .frameReserved t a l body := by
  simp only [definedTypes, List.contains_eq_mem, List.mem_cons, List.not_mem_nil, or_false, decide_eq_false_iff_not,
    not_or] at h
  obtain ⟨h1, h2, h7, h8⟩ := h
  simp only [frameOfType, h1, h2, h7, h8, if_false]

/-- The FRAME row of any type is well formed when its body has the bytes its length field declares (log 18). -/
theorem wellFormed_frameOfType (t : Byte) (a : U32) {l : U16} {body : List Byte} (h : body.length = l.toNat) :
    WellFormed (frameOfType t a l body) = true := by
  rcases frameOfType_cases t a l body with e | e | e | e | ⟨ht, e⟩ <;> rw [e]
  case inr.inr.inr.inr => simp only [WellFormed, h, ht, beq_self_eq_true, Bool.not_false, Bool.and_true]
  all_goals exact beq_iff_eq.2 h

theorem frameOfType_ne_rx (t : Byte) (a : U32) (l : U16) (body : List Byte) (c : Byte) :
    frameOfType t a l body ≠ .rx c := by
  rcases frameOfType_cases t a l body with e | e | e | e | ⟨-, e⟩ <;> rw [e] <;> exact Instr.noConfusion

/-- A well-formed instruction of the receive port that is no `RX` is the FRAME row of its type. -/
theorem eq_frameOfType_of_row {i : Instr} (hwf : WellFormed i = true) (hrow : rowBytes i ≠ []) (hrx : ∀ b, i ≠ .rx b) :
    ∃ t a l body, List.length body = BitVec.toNat l ∧ i = frameOfType t a l body := by
  cases i with
  | frameCommand a l body => exact ⟨ptCommand, a, l, body, eq_of_beq hwf, rfl⟩
  | frameData a l body => exact ⟨ptData, a, l, body, eq_of_beq hwf, rfl⟩
  | frameAck a l body => exact ⟨ptAck, a, l, body, eq_of_beq hwf, rfl⟩
  | frameEnd a l body => exact ⟨ptEnd, a, l, body, eq_of_beq hwf, rfl⟩
  | frameReserved t a l body =>
    simp only [WellFormed, Bool.and_eq_true, beq_iff_eq, Bool.not_eq_true'] at hwf
    obtain ⟨hlen, ht⟩ := hwf
    exact ⟨t, a, l, body, hlen, (frameOfType_reserved ht a l body).symm⟩
  | rx b => exact absurd rfl (hrx b)
  | _ => exact absurd rfl hrow

/-! ## The receive port -/

theorem decode_receive {chunk rest : List Byte} {i : Instr} (h : decodeReceive chunk = .ok (i, rest)) :
    decode (.receive chunk) = .ok (i, leftOver rest) := by
  simp only [decode, h]

/-- R78: a frame's own length field says where it ends, so the bytes after it are left. -/
theorem decode_row_append {i : Instr} (hwf : WellFormed i = true) (hrow : rowBytes i ≠ []) (hrx : ∀ b, i ≠ .rx b)
    (rest : List Byte) : decode (.receive (rowBytes i ++ rest)) = .ok (i, leftOver rest) := by
  obtain ⟨t, a, l, body, hlen, rfl⟩ := eq_frameOfType_of_row hwf hrow hrx
  rw [rowBytes_frameOfType]
  exact decode_receive (decodeReceive_frame a t l body rest hlen)

/-- A chunk at whose head no FRAME row stands does not start with a frame. -/
theorem startsWithFrame_eq_false {chunk : List Byte}
    (h : ∀ i tail, WellFormed i = true → (∀ c, i ≠ .rx c) → rowBytes i ≠ [] → chunk ≠ rowBytes i ++ tail) :
    startsWithFrame chunk = false := by
  refine Bool.eq_false_iff.2 fun hstarts => ?_
  obtain ⟨a, t, l, body, tail, hlen, hchunk⟩ := startsWithFrame_frame hstarts
  have hbytes := rowBytes_frameOfType t a l body
  exact h _ tail (wellFormed_frameOfType t a hlen) (frameOfType_ne_rx t a l body)
    (hbytes ▸ frameBytes_ne_nil a t l body) (hbytes ▸ hchunk)

/-- Settles O55: a row is read whole by its length field, and what is no row fails the decoder's test for one. -/
theorem frameIsReadOffTheHeadOfAChunk : Obligations.FrameIsReadOffTheHeadOfAChunk :=
  ⟨fun _ rest hwf hrow hrx => decode_row_append hwf hrow hrx rest,
    fun b rest h => decode_receive (decodeReceive_byte b rest (startsWithFrame_eq_false h))⟩

/-! ## The command port -/

theorem decode_payload {a : U32} {bytes : List Byte} {i : Instr} (h : decodePayload a bytes = i) :
    decode (.payload a bytes) = .ok (i, []) := by
  simp only [decode, h]

theorem decodePayload_storeModel (a : U32) (id : U16) : decodePayload a (payloadStoreModel id) = .cmdStoreModel a id :=
  congrArg (Instr.cmdStoreModel a) (word16_hi8_lo8 id)

theorem decodePayload_loadModel (a : U32) (id : U16) : decodePayload a (payloadLoadModel id) = .cmdLoadModel a id :=
  congrArg (Instr.cmdLoadModel a) (word16_hi8_lo8 id)

theorem decodePayload_deleteModel (a : U32) (id : U16) :
    decodePayload a (payloadDeleteModel id) = .cmdDeleteModel a id :=
  congrArg (Instr.cmdDeleteModel a) (word16_hi8_lo8 id)

theorem decodePayload_verifyPassword (a password : U32) :
    decodePayload a (payloadVerifyPassword password) = .cmdVerifyPassword a password :=
  congrArg (Instr.cmdVerifyPassword a) (word32_toBe32 password)

/-! ## Decoding what was encoded -/

/-- A FRAME row is encoded as its bytes alone, so nothing is left of the chunk. -/
theorem decode_encode_row {i : Instr} (hwf : WellFormed i = true) (hrow : rowBytes i ≠ []) (hrx : ∀ b, i ≠ .rx b)
    (henc : encode i = .receive (rowBytes i)) : decode (encode i) = .ok (i, []) := by
  have h := decode_row_append hwf hrow hrx []
  rwa [List.append_nil, ← henc] at h

/-- Settles O54, row by row: a FRAME row by its length field, a field of several bytes by its big-endian reading, and
every other row by the table's own codes. -/
theorem decodeOfEncodeIsTheInstruction : Obligations.DecodeOfEncodeIsTheInstruction := by
  intro i hwf
  cases i with
  | frameCommand | frameData | frameAck | frameEnd | frameReserved =>
    exact decode_encode_row hwf (frameBytes_ne_nil _ _ _ _) (fun _ => Instr.noConfusion) rfl
  | beginExchange _ _ mode => cases mode <;> rfl
  | cmdStoreModel a id => exact decode_payload (decodePayload_storeModel a id)
  | cmdLoadModel a id => exact decode_payload (decodePayload_loadModel a id)
  | cmdDeleteModel a id => exact decode_payload (decodePayload_deleteModel a id)
  | cmdVerifyPassword a password => exact decode_payload (decodePayload_verifyPassword a password)
  | _ => rfl

/-- Settles O56: the four words, evaluated by the decoder. -/
theorem writtenOutWordsDecode : Obligations.WrittenOutWordsDecode := ⟨rfl, rfl, rfl, rfl⟩

/-! ## The reserved operations -/

/-- Settles O11: both raise `ILLOP`, bit 3 of `FLAGS` (R33). -/
theorem reservedOperationsSetIllop : Obligations.ReservedOperationsSetIllop := by
  intro s
  have hraise : s.raise .illop = { s with flags := s.flags ||| 0b1000#4 } := by rw [State.raise, raiseFlag_illop]
  exact ⟨congrArg Host.Outcome.next hraise, congrArg Host.Outcome.next hraise⟩

/-! ## The read port -/

theorem readPort_rpay_ok {s : State} {i : Nat} {b : Byte} (h : s.rpay i = .ok b) : s.readPort 12 i = .ok b.toNat := by
  simp only [State.readPort, h]

theorem readPort_rpay_error {s : State} {i : Nat} {r : Refusal} (h : s.rpay i = .error r) :
    s.readPort 12 i = .error r := by
  simp only [State.readPort, h]

theorem readPort_reserved (s : State) (i : Nat) {n : Nat} (h : 13 ≤ n) :
    s.readPort n i = .error (.reservedRegister n) := by
  obtain ⟨k, rfl⟩ := Nat.exists_eq_add_of_le' h
  rfl

/-- Settles O30: registers 0 to 11 are the fields and their codes, 12 is the reply window, and the rest are reserved. -/
theorem readPortReadsTheRegisters : Obligations.ReadPortReadsTheRegisters := by
  intro s i
  have hcsum : s.csumok.toNat = if s.csumok then 1 else 0 := by cases s.csumok <;> rfl
  exact ⟨rfl, rfl, rfl, rfl, rfl, rfl, rfl, rfl, rfl, rfl, rfl, congrArg Except.ok hcsum, fun _ => readPort_rpay_ok,
    fun _ => readPort_rpay_error, fun _ => readPort_reserved s i⟩

end Sys2Proof.Proofs.Encoding
end

section
/-! ENCODE and DECODE, the checksum, and a wrong checksum at the deadline: the statements of 40_codec.md. -/

open Sys2Proof Sys2Proof.Machine

namespace Sys2Proof.Proofs.Codec

open Sys2Proof.Proofs.Registers

/-! ## The two operations on the command port -/

theorem frameEncode_of_fits (a : U32) (t : Byte) {p : List Byte} (h : p.length ≤ 65533) :
    frameEncode a t p = some (buildFrame a t p) :=
  if_pos h

theorem exec_encodeFrame (a : U32) (t : Byte) (p : List Byte) (s : State) :
    exec (.encodeFrame a t p) s = .next (s.transmit a t p) := rfl

theorem exec_decodeFrame (raw : List Byte) (s : State) :
    exec (.decodeFrame raw) s = .next (s.answerVerdict raw) := rfl

theorem transmit_of_fits (s : State) (a : U32) (t : Byte) {p : List Byte} (h : p.length ≤ 65533) :
    s.transmit a t p = { s with out := { s.out with tx := some (buildFrame a t p) } } := by
  rw [State.transmit, frameEncode_of_fits a t h]

/-! ## DECODE's last test -/

/-- Test 8 of R107: what DECODE answers on a whole frame, by whether its checksum agrees. -/
def checksumTest (verify : Bool) (t : Byte) (p : List Byte) (csumOk : Bool) : Verdict :=
  if verify && !csumOk then .badFrame .checksum else .ok t p csumOk

theorem checksumTest_accepts {v ck : Bool} (t : Byte) (p : List Byte) (h : v = false ∨ ck = true) :
    checksumTest v t p ck = .ok t p ck := by
  rcases h with rfl | rfl
  · rfl
  · cases v <;> rfl

theorem checksumTest_rejects (t : Byte) (p : List Byte) : checksumTest true t p false = .badFrame .checksum := rfl

/-- DECODE by what its parameter decides: a refusal made before the checksum test is the same under both values, and
everything else is that test's answer. -/
theorem frameDecode_cases (raw : List Byte) :
    (∃ r, r ≠ .checksum ∧ ∀ v, frameDecode v raw = .badFrame r) ∨
    ∃ t p ck, ∀ v, frameDecode v raw = checksumTest v t p ck := by
  unfold frameDecode
  split
  · exact .inl ⟨.marker, nofun, fun _ => rfl⟩
  split
  · exact .inl ⟨.short, nofun, fun _ => rfl⟩
  dsimp only
  split
  · exact .inl ⟨.len, nofun, fun _ => rfl⟩
  split
  · exact .inl ⟨.short, nofun, fun _ => rfl⟩
  · exact .inr ⟨_, _, _, fun _ => rfl⟩

/-! ## DECODE of a frame -/

theorem be16_append_right (s r : List Byte) : be16 (s ++ r) s.length = be16 r 0 :=
  congrArg₂ word16 (byteAt_append_right s r 0) (byteAt_append_right s r 1)

/-- A payload, the two bytes of a checksum and anything after them, behind a header that declares the payload: only the
checksum is left to test. -/
theorem frameDecode_payload (v : Bool) (a : U32) (t : Byte) {p : List Byte} (g : List Byte) (c : U16)
    (h : p.length ≤ 65533) :
    frameDecode v (frameBytes a t (declaredLength p) (p ++ toBe16 c ++ g)) =
      checksumTest v t p (decide (c = checksum t (declaredLength p) p)) := by
  have hl := declaredLength_toNat p h
  have hbody : p.length + 2 ≤ (p ++ toBe16 c ++ g).length := by simp [toBe16]
  have htake : (p ++ toBe16 c ++ g).take p.length = p := by simp
  have hc : be16 (p ++ toBe16 c ++ g) p.length = c := by
    rw [List.append_assoc, be16_append_right]
    exact word16_hi8_lo8 c
  rw [frameDecode_frame, hl, if_neg (by omega), if_neg (by omega), Nat.add_sub_cancel, htake, hc, beq_eq_decide]
  rfl

/-- R111 on the function itself: what ENCODE builds is accepted, whatever follows it. -/
theorem frameDecode_buildFrame_append (v : Bool) (a : U32) (t : Byte) {p : List Byte} (g : List Byte)
    (h : p.length ≤ 65533) : frameDecode v (buildFrame a t p ++ g) = .ok t p true := by
  rw [buildFrame, frameBytes_append, frameDecode_payload v a t g _ h, decide_eq_true rfl]
  exact checksumTest_accepts t p (.inr rfl)

theorem frameDecode_buildFrame (v : Bool) (a : U32) (t : Byte) {p : List Byte} (h : p.length ≤ 65533) :
    frameDecode v (buildFrame a t p) = .ok t p true := by
  simpa using frameDecode_buildFrame_append v a t [] h

/-- Settles O26: the frame of any address, with anything appended, is decoded to its type and payload. -/
theorem decodeUndoesEncode : Obligations.DecodeUndoesEncode := by
  intro a t p g s h
  have hverdict (u : State) {raw : List Byte} (hraw : ∀ v, frameDecode v raw = .ok t p true) :
      ∃ w, exec (.decodeFrame raw) u = .next w ∧ w.out.verdict = some (.ok t p true) :=
    ⟨_, exec_decodeFrame raw u, congrArg some (hraw _)⟩
  refine ⟨buildFrame a t p, _, exec_encodeFrame a t p s, frameEncode_of_fits a t h,
    hverdict _ fun v => frameDecode_buildFrame v a t h,
    hverdict _ fun v => frameDecode_buildFrame_append v a t g h, ?_⟩
  intro a' u' hexec frame' htx
  cases hexec
  cases (frameEncode_of_fits a' t h).symm.trans htx
  exact hverdict _ fun v => frameDecode_buildFrame v a' t h

/-- R109: a whole frame is decoded by its own bytes, so bytes after it make no difference. -/
theorem frameDecode_append {v : Bool} {f : List Byte} {t : Byte} {p : List Byte} {ck : Bool} (g : List Byte)
    (h : frameDecode v f = .ok t p ck) : frameDecode v (f ++ g) = .ok t p ck := by
  obtain ⟨hlen, h0, h1, -, hl, hfit, -⟩ := frameDecode_ok h
  have hbody : p.length + 2 ≤ (f.drop 9).length := by rw [List.length_drop]; omega
  have hbody' : p.length + 2 ≤ (f.drop 9 ++ g).length := by rw [List.length_append]; omega
  rw [frameBytes_of_header h0 h1 hlen, frameDecode_frame, hl, if_neg (by omega), if_neg (by omega),
    Nat.add_sub_cancel] at h
  rwa [frameBytes_of_header h0 h1 hlen, frameBytes_append, frameDecode_frame, hl, if_neg (by omega), if_neg (by omega),
    Nat.add_sub_cancel, List.take_append_of_le_length (by omega), be16_append_left _ g _ (by omega)]

/-- Settles O28: `frameDecode_frame` names no address; the other clauses are the two lemmas above. -/
theorem decodeDoesNotCheck : Obligations.DecodeDoesNotCheck := by
  refine ⟨fun v a a' t l body => ?_, fun v f g t p ck => frameDecode_append g, fun v a t p g c h hv => ?_⟩
  · rw [frameDecode_frame, frameDecode_frame]
  · exact (frameDecode_payload v a t g c h).trans (checksumTest_accepts t p (hv.imp_right decide_eq_true))

/-- Settles O29: the parameter is read by the last test alone. -/
theorem verifyChecksumOnlyRejectsMismatches : Obligations.VerifyChecksumOnlyRejectsMismatches := by
  intro raw
  obtain ⟨r, hr, h⟩ | ⟨t, p, ck, h⟩ := frameDecode_cases raw <;> rw [h, h]
  · exact ⟨fun e => hr (Verdict.badFrame.inj e), fun _ => id, nofun, nofun⟩
  · rw [checksumTest_accepts t p (.inl rfl)]
    refine ⟨nofun, nofun, ?_, ?_⟩
    · rintro _ _ ⟨⟩
      exact checksumTest_accepts t p (.inr rfl)
    · rintro _ _ ⟨⟩
      exact checksumTest_rejects t p

/-- Settles O27: DECODE reads the type and the payload back from the frame, and the address stands at offset 2. -/
theorem encodeIsInjective : Obligations.EncodeIsInjective := by
  intro a a' t t' p p' h h' heq
  rw [frameEncode_of_fits a t h, frameEncode_of_fits a' t' h', Option.some.injEq] at heq
  have haddr : a = a' :=
    calc a = be32 (buildFrame a t p) 2 := (be32_frame_address ..).symm
      _ = be32 (buildFrame a' t' p') 2 := by rw [heq]
      _ = a' := be32_frame_address ..
  have hdec := frameDecode_buildFrame false a t h
  rw [heq, frameDecode_buildFrame false a' t' h'] at hdec
  cases hdec
  exact ⟨haddr, rfl, rfl⟩

/-! ## The checksum -/

theorem checksum_toNat (t : Byte) (l : U16) (p : List Byte) :
    (checksum t l p).toNat = (t.toNat + l.toNat / 256 + l.toNat % 256 + (p.map BitVec.toNat).sum) % 65536 := by
  rw [checksum, BitVec.toNat_ofNat, hi8_toNat, lo8_toNat, byteSum_eq_sum]

/-- Adding bytes one by one in 16 bits truncates after every addition, and is the truncated sum all the same. -/
theorem foldl_add_setWidth (p : List Byte) (x : U16) :
    (p.map (BitVec.setWidth 16)).foldl (· + ·) x = x + BitVec.ofNat 16 (byteSum p) := by
  induction p generalizing x with
  | nil => simp [byteSum]
  | cons b p ih =>
    rw [List.map_cons, List.foldl_cons, ih, byteSum, BitVec.ofNat_add, BitVec.ofNat_toNat, BitVec.add_assoc]

/-- Settles O24: truncation commutes with addition. -/
theorem checksumIsTheTruncatedSum : Obligations.ChecksumIsTheTruncatedSum := by
  intro t l p
  refine ⟨checksum_toNat t l p, ?_⟩
  rw [foldl_add_setWidth, checksum]
  simp only [BitVec.ofNat_add, BitVec.ofNat_toNat]

theorem sum_bytes_le (p : List Byte) : (p.map BitVec.toNat).sum ≤ 255 * p.length := by
  have h : ∀ n ∈ p.map BitVec.toNat, n ≤ 255 := by
    intro n hn
    obtain ⟨b, -, rfl⟩ := List.mem_map.1 hn
    exact Nat.le_of_lt_succ b.isLt
  simpa [Nat.mul_comm] using List.sum_le_card_nsmul _ _ h

/-- Settles O25: the terms are added, and 255 payload bytes of at most 255 leave room for the type and the length. -/
theorem checksumIgnoresOrderAndWrapsLate : Obligations.ChecksumIgnoresOrderAndWrapsLate := by
  constructor
  · intro t l p q hperm
    rw [checksum, checksum, byteSum_eq_sum, byteSum_eq_sum, (hperm.map BitVec.toNat).sum_eq]
  · intro t p h
    have hsum := sum_bytes_le p
    have ht := t.isLt
    have hbound : t.toNat + (p.length + 2) / 256 + (p.length + 2) % 256 + (p.map BitVec.toNat).sum ≤ 65282 := by omega
    have hl : (BitVec.ofNat 16 (p.length + 2)).toNat = p.length + 2 :=
      declaredLength_toNat p (h.trans (by decide))
    rw [checksum_toNat, hl]
    exact ⟨hbound, Nat.mod_eq_of_lt (by omega)⟩

/-! ## The bytes ENCODE hands over -/

theorem toBe16_eq_ofNat (v : U16) : toBe16 v = [BitVec.ofNat 8 (v.toNat / 256), BitVec.ofNat 8 v.toNat] := by
  rw [toBe16, ← hi8_toNat, BitVec.ofNat_toNat, BitVec.setWidth_eq, BitVec.ofNat_toNat]
  rfl

theorem toBe32_eq_ofNat (v : U32) :
    toBe32 v = [BitVec.ofNat 8 (v.toNat / 2 ^ 24), BitVec.ofNat 8 (v.toNat / 2 ^ 16), BitVec.ofNat 8 (v.toNat / 2 ^ 8),
      BitVec.ofNat 8 v.toNat] := by
  simp only [toBe32, BitVec.extractLsb', Nat.shiftRight_eq_div_pow, pow_zero, Nat.div_one]

/-- Settles O4: the fields of the built frame, big-endian. -/
theorem encodeHandsOverTheFrame : Obligations.EncodeHandsOverTheFrame := by
  intro a t p s h l c
  have hl : (declaredLength p).toNat = l := declaredLength_toNat p h
  have hc : (checksum t (declaredLength p) p).toNat = c := by rw [checksum_toNat, hl]
  rw [exec_encodeFrame, transmit_of_fits s a t h, buildFrame, frameBytes, toBe32_eq_ofNat, toBe16_eq_ofNat,
    toBe16_eq_ofNat, hl, hc, ← List.append_assoc]
  rfl

/-- Settles O5: `frameEncode` has no frame for such a payload. -/
theorem encodeTooLongHandsOverNothing : Obligations.EncodeTooLongHandsOverNothing := by
  intro a t p s h
  have hnone : frameEncode a t p = none := if_neg (Nat.not_le.2 h)
  rw [exec_encodeFrame, State.transmit, hnone]

/-! ## DECODE's tests in their order -/

theorem take_two_eq_marker_iff (raw : List Byte) :
    raw.take 2 = startMarker ↔ ¬ (raw.length < 2 ∨ byteAt raw 0 ≠ 0xEF ∨ byteAt raw 1 ≠ 0x01) := by
  match raw with
  | [] | [_] => simp [startMarker]
  | b0 :: b1 :: _ => simp [startMarker]

theorem frameDecode_no_marker (v : Bool) {raw : List Byte} (h : raw.take 2 ≠ startMarker) :
    frameDecode v raw = .badFrame .marker :=
  if_pos (not_not.1 ((take_two_eq_marker_iff raw).not.1 h))

section
variable {raw : List Byte} (hmark : raw.take 2 = startMarker)
include hmark

theorem frameDecode_short_header (v : Bool) (h : raw.length < 9) : frameDecode v raw = .badFrame .short := by
  rw [frameDecode, if_neg ((take_two_eq_marker_iff raw).1 hmark), if_pos h]

theorem frameDecode_len (v : Bool) (h : 9 ≤ raw.length) (hl : (be16 raw 7).toNat < 2) :
    frameDecode v raw = .badFrame .len := by
  rw [frameDecode, if_neg ((take_two_eq_marker_iff raw).1 hmark), if_neg (by omega), if_pos hl]

theorem frameDecode_short_body (v : Bool) (h : 9 ≤ raw.length) (hl : 2 ≤ (be16 raw 7).toNat)
    (hshort : raw.length < 9 + (be16 raw 7).toNat) : frameDecode v raw = .badFrame .short := by
  rw [frameDecode, if_neg ((take_two_eq_marker_iff raw).1 hmark), if_neg (by omega), if_neg (by omega), if_pos hshort]

theorem frameDecode_whole (v : Bool) {l : Nat} (hl : (be16 raw 7).toNat = l) (hl2 : 2 ≤ l) (hfit : 9 + l ≤ raw.length) :
    frameDecode v raw = checksumTest v (byteAt raw 6) (slice raw 9 (9 + l - 2))
      (be16 raw (9 + l - 2) == checksum (byteAt raw 6) (be16 raw 7) (slice raw 9 (9 + l - 2))) := by
  subst hl
  rw [frameDecode, if_neg ((take_two_eq_marker_iff raw).1 hmark), if_neg (by omega), if_neg (by omega),
    if_neg (by omega)]
  rfl

end

/-- The checksum DECODE computes, from the bytes of the header. -/
theorem checksum_be16_toNat (t : Byte) (raw : List Byte) (i : Nat) (p : List Byte) :
    (checksum t (be16 raw i) p).toNat =
      (t.toNat + (byteAt raw i).toNat + (byteAt raw (i + 1)).toNat + (p.map BitVec.toNat).sum) % 65536 := by
  rw [checksum_toNat, ← hi8_toNat, ← lo8_toNat, be16, hi8_word16, lo8_word16]

/-- Settles O6: one lemma above for each test; the checksums are compared as numbers. -/
theorem decodeAnswersByTheOrderedTests : Obligations.DecodeAnswersByTheOrderedTests := by
  intro raw s
  refine ⟨frameDecode s.cfg.verifyChecksum raw, exec_decodeFrame raw s, ?_⟩
  intro l p embedded computed
  have hl : (be16 raw 7).toNat = l := be16_toNat raw 7
  have hiff (h2 : 2 ≤ l) : (be16 raw (9 + l - 2) = checksum (byteAt raw 6) (be16 raw 7) p) ↔ embedded = computed := by
    rw [← BitVec.toNat_inj, be16_toNat, checksum_be16_toNat, show 9 + l - 2 + 1 = 9 + l - 1 by omega]
  have hwhole (hm : raw.take 2 = startMarker) (h2 : 2 ≤ l) (hfit : 9 + l ≤ raw.length) :
      frameDecode s.cfg.verifyChecksum raw =
        checksumTest s.cfg.verifyChecksum (byteAt raw 6) p (decide (embedded = computed)) := by
    rw [frameDecode_whole hm _ hl h2 hfit, beq_eq_decide, decide_eq_decide.2 (hiff h2)]
  refine ⟨frameDecode_no_marker _, fun hm => frameDecode_short_header hm _,
    fun hm h9 hlt => frameDecode_len hm _ h9 (hl.trans_lt hlt),
    fun hm h9 h2 hlt => frameDecode_short_body hm _ h9 (hl.symm ▸ h2) (hl.symm ▸ hlt), ?_, ?_⟩
  · intro hm h2 hfit hv hne
    rw [hwhole hm h2 hfit, hv, decide_eq_false hne]
    rfl
  · intro hm h2 hfit hv
    rw [hwhole hm h2 hfit]
    exact checksumTest_accepts _ _ (hv.imp_right decide_eq_true)

/-! ## A wrong checksum at the deadline -/

/-- R130: the deadline tick latches the verdict on the received bytes. -/
theorem exec_tick_deadline {s : State} {raw : List Byte} (hst : s.st = .listening) (hrem : s.rem = 1)
    (hraw : s.received = .ok raw) (hne : raw ≠ []) :
    exec .tick s = .next (s.latchVerdict (frameDecode s.cfg.verifyChecksum raw)) := by
  have hcnt : s.cnt ≠ 0 := fun h0 => hne (List.length_eq_zero_iff.1 (by rw [received_length hraw, h0]; rfl))
  show s.tickEvent = _
  rw [State.tickEvent, if_pos hst, if_neg (by rw [hrem]; decide), State.expire, if_neg hcnt, hraw]

/-- R130: a reply of type 7 whose payload has a status byte and the expected length is accepted. -/
theorem latchVerdict_expected {s : State} {status : Byte} {p : List Byte} (ck : Bool)
    (h : lengthMeets s.explen s.expmode (status :: p).length = true) :
    s.latchVerdict (.ok 7 (status :: p) ck) = { s with
      st := .done, rem := 0, result := .ok, rtype := 7, rplen := BitVec.ofNat 16 (status :: p).length
      rstatus := status, csumok := ck } := by
  simp only [State.latchVerdict, ptAck, ne_eq, not_true_eq_false, if_false, h, if_true]

/-- Settles O20: only the checksum test is left, and its answer is latched. -/
theorem wrongChecksumAtTheDeadline : Obligations.WrongChecksumAtTheDeadline := by
  intro s a c status p g payload l hst hrem hlen hraw hwrong hmeets
  have htick := exec_tick_deadline hst hrem hraw (List.cons_ne_nil _ _)
  have hdec : frameDecode s.cfg.verifyChecksum (frameBytes a 7 l (payload ++ toBe16 c ++ g)) =
      checksumTest s.cfg.verifyChecksum 7 payload false :=
    (frameDecode_payload _ a 7 g c hlen).trans (congrArg (checksumTest _ 7 payload) (decide_eq_false hwrong))
  refine ⟨_, htick, fun hv => ?_, fun hv => ?_⟩ <;> rw [hdec, hv]
  · exact latchVerdict_expected false hmeets
  · rfl

end Sys2Proof.Proofs.Codec
end

section
/-! The life of one exchange, from BEGIN over the bytes and the ticks to the deadline and RELEASE: the statements of
41_collector.md. -/

open Sys2Proof Sys2Proof.Machine

namespace Sys2Proof.Proofs.Collector

open Sys2Proof.Proofs.Scope Sys2Proof.Proofs.Registers Sys2Proof.Proofs.Codec

/-! ## The operations -/

theorem exec_beginExchange (d n : U16) (mode : ExpMode) (s : State) :
    exec (.beginExchange d n mode) s = .next (s.beginExchange d n mode) := rfl

theorem exec_release (s : State) : exec .release s = .next s.releaseResult := rfl

theorem exec_rx (b : Byte) (s : State) : exec (.rx b) s = .next (s.rxByte b) := rfl

/-- R123, R133: what a refusal leaves. -/
theorem raise_busyerr_eq (s : State) : s.raise .busyerr = { s with flags := s.flags ||| 0b0100#4 } := by
  rw [State.raise, raiseFlag_busyerr]

theorem beginExchange_of_listening {s : State} (d n : U16) (mode : ExpMode) (h : s.st = .listening) :
    s.beginExchange d n mode = s.raise .busyerr :=
  if_pos h

/-- R122: outside `LISTENING`, with time to wait. -/
theorem beginExchange_of_pos {s : State} {d : U16} (n : U16) (mode : ExpMode) (h : s.st ≠ .listening) (hd : d ≠ 0) :
    s.beginExchange d n mode =
      { s.clearRecord with
        flags := lowerFlag .ovf s.flags, explen := n, expmode := mode, rem := d, st := .listening } :=
  (if_neg h).trans (if_pos hd)

/-- R122: outside `LISTENING`, with the deadline reached at once. -/
theorem beginExchange_of_zero {s : State} (n : U16) (mode : ExpMode) (h : s.st ≠ .listening) :
    s.beginExchange 0 n mode =
      { s.clearRecord with
        flags := lowerFlag .ovf s.flags, explen := n, expmode := mode, rem := 0, st := .done, result := .timeout } :=
  if_neg h

/-- Settles O3: NOP answers its state. -/
theorem nopChangesNothing : Obligations.NopChangesNothing := fun _ => rfl

/-- Settles O9: CLRF writes the flag word alone. -/
theorem clrfClearsTheFlags : Obligations.ClrfClearsTheFlags := fun _ => rfl

/-- Settles O7, by the two cases of an accepted BEGIN. -/
theorem beginStartsAnExchange : Obligations.BeginStartsAnExchange := by
  intro d n mode s hst
  refine ⟨_, exec_beginExchange d n mode s, ?_⟩
  by_cases hd : d = 0
  · subst hd
    rw [beginExchange_of_zero n mode hst, lowerFlag_ovf]
    rfl
  · rw [beginExchange_of_pos n mode hst hd, lowerFlag_ovf, if_neg hd, if_neg hd]
    rfl

/-- Settles O8: the refusal raises `BUSYERR`. -/
theorem beginInListeningIsRefused : Obligations.BeginInListeningIsRefused := by
  intro d n mode s hst
  rw [exec_beginExchange, beginExchange_of_listening d n mode hst, raise_busyerr_eq]

/-- Settles O10, state by state. -/
theorem releaseDiscardsTheResult : Obligations.ReleaseDiscardsTheResult := by
  intro s
  rw [exec_release]
  rcases s.releaseResult_cases with ⟨hst, e⟩ | ⟨hst, e⟩ | ⟨hst, e⟩ <;> rw [e]
  · exact ⟨fun _ => ⟨_, rfl, rfl⟩, by simp [hst], by simp [hst]⟩
  · exact ⟨by simp [hst], fun _ => congrArg Host.Outcome.next (raise_busyerr_eq s), by simp [hst]⟩
  · exact ⟨by simp [hst], by simp [hst], fun _ => rfl⟩

/-! ## A received byte -/

/-- Settles O12: below the capacity the byte is stored at the write position, at it `OVF` is raised. -/
theorem rxAppendsOneByte : Obligations.RxAppendsOneByte := by
  intro b s hst
  rw [exec_rx]
  refine ⟨fun hc => ?_, fun hc => ?_⟩
  · rw [rxByte_eq_storeByte b hst hc]
    exact ⟨_, rfl, rfl, State.storeByte_cnt_toNat b hc, storeByte_bufRead_cnt b hc,
      fun _ hi => storeByte_bufRead_of_ne b hi⟩
  · rw [rxByte_eq_raise_ovf b hst hc, State.raise, raiseFlag_ovf]

/-- Settles O13: outside `LISTENING` a byte raises `STRAY`. -/
theorem rxOutsideListeningIsStray : Obligations.RxOutsideListeningIsStray := by
  intro b s hst
  rw [exec_rx, rxByte_eq_raise_stray b hst, State.raise, raiseFlag_stray]

/-! ## A tick -/

theorem exec_tick_countdown {s : State} (hst : s.st = .listening) (hrem : 1 < s.rem.toNat) :
    exec .tick s = .next { s with rem := s.rem - 1 } :=
  (if_pos hst).trans (if_pos hrem)

/-- Settles O14: the first branch of R126. -/
theorem tickCountsDown : Obligations.TickCountsDown := fun _ => exec_tick_countdown

/-- Settles O15: R127. -/
theorem tickOutsideListeningDoesNothing : Obligations.TickOutsideListeningDoesNothing := fun _ hst => if_neg hst

theorem exec_tick_expire {s : State} (hst : s.st = .listening) (hrem : s.rem = 1) : exec .tick s = s.expire :=
  (if_pos hst).trans (if_neg (by simp [hrem]))

/-- R130: on an empty buffer the deadline tick latches `TIMEOUT`. -/
theorem exec_tick_timeout {s : State} (hst : s.st = .listening) (hrem : s.rem = 1) (hcnt : s.cnt = 0) :
    exec .tick s = .next s.latchTimeout :=
  (exec_tick_expire hst hrem).trans (if_pos hcnt)

/-! ## The verdict at the deadline -/

/-- R27: the expectation on a payload length, mode by mode. -/
theorem lengthMeets_iff {explen : U16} {mode : ExpMode} {n : Nat} :
    lengthMeets explen mode n = true ↔ (mode = .exact ∧ n = explen.toNat) ∨ (mode = .atLeast ∧ explen.toNat ≤ n) := by
  cases mode <;> simp [lengthMeets]

theorem lengthMeets_eq_false_iff {explen : U16} {mode : ExpMode} {n : Nat} :
    lengthMeets explen mode n = false ↔ (mode = .exact ∧ n ≠ explen.toNat) ∨ (mode = .atLeast ∧ n < explen.toNat) := by
  cases mode <;> simp [lengthMeets]

/-- R130, first test on a decoded frame: its type is not that of an acknowledgment. -/
theorem latchVerdict_notAck (s : State) {t : Byte} (p : List Byte) (ck : Bool) (ht : t ≠ 7) :
    s.latchVerdict (.ok t p ck) = { s with
      st := .done, rem := 0, result := .unexpectedReply, errinfo := .notAck
      rtype := t, rplen := BitVec.ofNat 16 p.length, csumok := ck } :=
  if_pos ht

/-- R130, second test on a decoded frame: the payload is empty or of another length than expected. -/
theorem latchVerdict_plen {s : State} {p : List Byte} (ck : Bool)
    (hp : p = [] ∨ lengthMeets s.explen s.expmode p.length = false) :
    s.latchVerdict (.ok 7 p ck) = { s with
      st := .done, rem := 0, result := .unexpectedReply, errinfo := .plen
      rtype := 7, rplen := BitVec.ofNat 16 p.length, csumok := ck } := by
  rcases s.latchVerdict_cases (.ok 7 p ck) with ⟨r, hv, -⟩ | ⟨t, q, ck', hv, ht, -⟩ | ⟨q, ck', hv, -, e⟩ |
    ⟨b, q, ck', hv, hl, -⟩ <;> cases hv
  · exact absurd rfl ht
  · exact e
  · exact absurd hl (by simpa using hp)

/-- The bytes read one by one are the received ones. -/
theorem received_of_bufRead {s : State} {raw : List Byte} (hlen : raw.length = s.cnt.toNat)
    (h : ∀ i, (hi : i < raw.length) → s.bufRead i = .ok raw[i]) : s.received = .ok raw :=
  State.bufFrom_ok.2 ⟨hlen, fun i hi => by rw [Nat.zero_add]; exact h i hi⟩

theorem cnt_eq_zero_iff (s : State) : s.cnt = 0 ↔ s.cnt.toNat = 0 :=
  BitVec.toNat_inj.symm

/-- Settles O16: the tick latches the verdict, and each outcome is a lemma about `State.latchVerdict`. -/
theorem deadlineTickResolves : Obligations.DeadlineTickResolves := by
  intro s raw hst hrem hlen hread
  have htick (hne : raw ≠ []) := exec_tick_deadline hst hrem (received_of_bufRead hlen hread) hne
  refine ⟨fun hnil => ?timeout, fun hne r hv => ?badPacket, fun hne t p ck hv ht => ?notAck,
    fun hne p ck hv hp => ?plen, fun hne status p ck hv hl => ?ok⟩
  case timeout =>
    exact exec_tick_timeout hst hrem ((cnt_eq_zero_iff s).2 (by rw [← hlen, hnil]; rfl))
  case badPacket =>
    rw [htick hne, hv]
    rfl
  case notAck => rw [htick hne, hv, latchVerdict_notAck s p ck ht]
  case plen =>
    have hplen : p = [] ∨ lengthMeets s.explen s.expmode p.length = false :=
      hp.imp (fun h => List.length_eq_zero_iff.1 (Nat.lt_one_iff.1 h)) lengthMeets_eq_false_iff.2
    rw [htick hne, hv, latchVerdict_plen ck hplen]
  case ok =>
    rw [htick hne, hv, latchVerdict_expected ck (lengthMeets_iff.2 hl)]
    rfl

/-- R131: an accepted reply is a complete frame of type 7 at the head of the bytes, of the expected length. -/
theorem complete_frame_of_ack {v : Bool} {raw p : List Byte} {status : Byte} {ck : Bool} {explen : U16}
    {mode : ExpMode} (hv : frameDecode v raw = .ok 7 (status :: p) ck)
    (hl : lengthMeets explen mode (p.length + 1) = true) :
    let l := (byteAt raw 7).toNat * 256 + (byteAt raw 8).toNat
    raw.take 2 = [0xEF, 0x01] ∧ 9 ≤ raw.length ∧ 2 ≤ l ∧ 9 + l ≤ raw.length ∧ byteAt raw 6 = 7 ∧ 1 ≤ l - 2 ∧
      ((mode = .exact ∧ l - 2 = explen.toNat) ∨ (mode = .atLeast ∧ explen.toNat ≤ l - 2)) := by
  intro l
  obtain ⟨h9, h0, h1, ht, hlen, hfit, -⟩ := frameDecode_ok hv
  have hlen' : l = p.length + 1 + 2 := (be16_toNat raw 7).symm.trans hlen
  have hmark : raw.take 2 = startMarker := (take_two_eq_marker_iff raw).2 (by simp [h0, h1]; omega)
  rw [List.length_cons] at hfit
  rw [hlen']
  exact ⟨hmark, h9, by omega, by omega, ht.symm, by omega, lengthMeets_iff.1 hl⟩

/-- Settles O49: EXPIRE's cases; only the last latches `OK`. -/
theorem timeoutLaw : Obligations.TimeoutLaw := by
  intro s t hinv hst hrem h
  rw [exec_tick_expire hst hrem] at h
  rcases s.expire_cases with ⟨hcnt, e⟩ | ⟨hcnt, raw, hraw, e⟩ | ⟨-, f, -, e⟩ <;> rw [e] at h <;> cases h
  · exact ⟨nofun, iff_of_true rfl hcnt, nofun⟩
  · rcases s.latchVerdict_cases (frameDecode s.cfg.verifyChecksum raw) with
      ⟨r, -, e⟩ | ⟨t, p, ck, -, -, e⟩ | ⟨p, ck, -, -, e⟩ | ⟨status, p, ck, hv, hl, e⟩ <;> rw [e]
    case inr.inr.inr => exact ⟨nofun, iff_of_false nofun hcnt, fun _ => ⟨raw, hraw, complete_frame_of_ack hv hl⟩⟩
    all_goals exact ⟨nofun, iff_of_false nofun hcnt, nofun⟩

/-! ## Every event has a next state -/

/-- R24, R121: under the invariant EXPIRE reads defined bytes alone, so a tick never faults. -/
theorem exec_tick_total {s : State} (hinv : s.Inv) : ∃ t, exec .tick s = .next t := by
  rcases s.tickEvent_cases with ⟨-, e⟩ | ⟨-, -, e⟩ | ⟨hst, hrem, -⟩
  · exact ⟨_, e⟩
  · exact ⟨_, e⟩
  · obtain ⟨t, ht, -⟩ := tickEvent_deadline hst hrem hinv.bufDefined hinv.cntBound
    exact ⟨t, ht⟩

theorem exec_total (i : Instr) {s : State} (hinv : s.Inv) : ∃ t, exec i s = .next t := by
  cases i with
  | tick => exact exec_tick_total hinv
  | _ => exact ⟨_, rfl⟩

/-- Settles O37: a step is a fetch, which keeps the invariant, and an event at most. -/
theorem neverStuck : Obligations.NeverStuck := by
  refine ⟨fun i s => exec_total i, fun s hinv => ?_⟩
  rcases s.fetch_cases with ⟨-, e⟩ | ⟨p, rest, r, -, -, e⟩ | ⟨p, rest, i, left, -, -, e⟩ <;> simp only [step, e]
  · exact ⟨_, rfl⟩
  · exact ⟨_, rfl⟩
  · exact exec_total i (inv_setIo hinv s.flags _ _)

/-! ## The transitions of `ST` -/

/-- Settles O38, event by event. -/
theorem stChangesOnlyByTheTable : Obligations.StChangesOnlyByTheTable := by
  intro i s t hinv h
  cases i with
  | frameCommand | frameData | frameAck | frameEnd | frameReserved | rx =>
    obtain ⟨m, c, w, rfl⟩ := exec_received_frame rfl h
    rfl
  | beginExchange d n mode =>
    cases h
    rcases s.beginExchange_cases d n mode with ⟨hst, e⟩ | ⟨hst, hd, e⟩ | ⟨hst, rfl, e⟩ <;> rw [e]
    · simp [hst]
    · exact ((if_neg hst).trans (if_neg hd)).symm
    · exact (if_neg hst).symm
  | release =>
    cases h
    rcases s.releaseResult_cases with ⟨hst, e⟩ | ⟨hst, e⟩ | ⟨hst, e⟩ <;> simp [e, hst]
  | tick => exact tickEvent_st hinv h
  | reset => cases h; rfl
  | _ => cases h; rfl

/-! ## An exchange under way -/

/-- An exchange under way in a state of the invariant: `r` ticks before its deadline, its own expectation loaded. -/
structure Ongoing (s : State) (r : Nat) (n : U16) (mode : ExpMode) : Prop where
  inv : s.Inv
  listening : s.st = .listening
  remaining : s.rem.toNat = r
  explen_eq : s.explen = n
  expmode_eq : s.expmode = mode

/-- R122: what an accepted BEGIN with time to wait starts, from any state. -/
theorem ongoing_beginExchange {s : State} {d : U16} (n : U16) (mode : ExpMode) (hst : s.st ≠ .listening) (hd : d ≠ 0) :
    Ongoing (s.beginExchange d n mode) d.toNat n mode := by
  have hpos : 1 ≤ d.toNat := Nat.one_le_iff_ne_zero.2 fun h => hd (BitVec.eq_of_toNat_eq h)
  rw [beginExchange_of_pos n mode hst hd]
  exact ⟨inv_of_listening rfl rfl (Nat.zero_le _) hpos rfl ⟨rfl, rfl, rfl, rfl, rfl⟩, rfl, rfl, rfl, rfl⟩

/-- R123, R124, R133: in `LISTENING` no event but TICK and RESET reaches `ST`, `REM` or the expectation. -/
theorem exec_listening_frame {i : Instr} {s t : State} (hinv : s.Inv) (hst : s.st = .listening)
    (h : exec i s = .next t) (htick : i ≠ .tick) (hreset : i ≠ .reset) :
    t.st = s.st ∧ t.rem.toNat = s.rem.toNat ∧ (t.explen, t.expmode) = (s.explen, s.expmode) := by
  have hst' := stChangesOnlyByTheTable i s t hinv h
  have hrem := remCountsTicksOnlyWhileListening i s t hinv h
  obtain ⟨-, -, hexp⟩ := expectationAndParametersAreKept i s t h
  cases i with
  | tick => exact absurd rfl htick
  | reset => exact absurd rfl hreset
  | beginExchange | release => simpa [hst] using And.intro hst' (And.intro hrem hexp)
  | _ => exact ⟨hst', hrem, hexp⟩

theorem Ongoing.event {i : Instr} {s : State} {r : Nat} {n : U16} {mode : ExpMode} (h : Ongoing s r n mode)
    (htick : i ≠ .tick) (hreset : i ≠ .reset) : ∃ t, exec i s = .next t ∧ Ongoing t r n mode := by
  obtain ⟨hinv, hst, hrem, hn, hmode⟩ := h
  obtain ⟨t, ht⟩ := exec_total i hinv
  obtain ⟨hst', hrem', hexp⟩ := exec_listening_frame hinv hst ht htick hreset
  obtain ⟨hn', hmode'⟩ := Prod.mk.inj hexp
  exact ⟨t, ht, exec_keeps_inv hinv ht, hst'.trans hst, hrem'.trans hrem, hn'.trans hn, hmode'.trans hmode⟩

theorem Ongoing.countdown {s : State} {r : Nat} {n : U16} {mode : ExpMode} (h : Ongoing s r n mode) (hr : 1 < r) :
    ∃ t, exec .tick s = .next t ∧ Ongoing t (r - 1) n mode := by
  obtain ⟨hinv, hst, rfl, hn, hmode⟩ := h
  have ht := exec_tick_countdown hst hr
  exact ⟨_, ht, exec_keeps_inv hinv ht, hst, (tickEvent_rem ht).trans (if_pos hst), hn, hmode⟩

theorem tickCount_cons_tick (es : List Instr) : tickCount (.tick :: es) = tickCount es + 1 :=
  List.countP_cons_of_pos rfl

theorem tickCount_cons_of_ne {i : Instr} (h : i ≠ .tick) (es : List Instr) : tickCount (i :: es) = tickCount es :=
  List.countP_cons_of_neg (by simpa using h)

theorem runEvents_cons {i : Instr} {s t : State} (es : List Instr) (h : exec i s = .next t) :
    runEvents (i :: es) s = runEvents es t := by
  simp only [runEvents, h]

/-- R126, R228: before its deadline an exchange stays under way, and its ticks alone count. -/
theorem Ongoing.run {es : List Instr} {s : State} {r : Nat} {n : U16} {mode : ExpMode} (h : Ongoing s r n mode)
    (hreset : .reset ∉ es) (hr : tickCount es < r) :
    ∃ u, runEvents es s = .next u ∧ Ongoing u (r - tickCount es) n mode := by
  induction es generalizing s r with
  | nil => exact ⟨s, rfl, h⟩
  | cons i es ih =>
    obtain ⟨hi, hes⟩ := List.ne_and_not_mem_of_not_mem_cons hreset
    by_cases htick : i = .tick
    · subst htick
      rw [tickCount_cons_tick] at hr ⊢
      obtain ⟨t, ht, hon⟩ := h.countdown (by omega)
      rw [runEvents_cons es ht, show r - (tickCount es + 1) = r - 1 - tickCount es by omega]
      exact ih hon hes (by omega)
    · rw [tickCount_cons_of_ne htick] at hr ⊢
      obtain ⟨t, ht, hon⟩ := h.event htick hi.symm
      rw [runEvents_cons es ht]
      exact ih hon hes hr

/-- R126, R130: the tick at the deadline resolves. -/
theorem Ongoing.deadline {s : State} {n : U16} {mode : ExpMode} (h : Ongoing s 1 n mode) :
    ∃ t, exec .tick s = .next t ∧ t.st = .done ∧ t.result ≠ .none ∧ t.rem = 0 ∧ t.doneIrq = true := by
  obtain ⟨t, ht, hdone⟩ := tickEvent_deadline h.listening h.remaining.le h.inv.bufDefined h.inv.cntBound
  have hinv : t.Inv := exec_keeps_inv (i := .tick) h.inv ht
  exact ⟨t, ht, hdone, fun hnone => hinv.resultNone.1 hnone hdone, hinv.doneRem hdone, by simp [State.doneIrq, hdone]⟩

/-- Settles O48: BEGIN puts an exchange under way, and it is so until its deadline. -/
theorem exchangeResolvesExactlyAtTheDeadline : Obligations.ExchangeResolvesExactlyAtTheDeadline := by
  intro s d n mode es _ hst hd hreset hcount
  obtain ⟨u, hrun, hon⟩ := (ongoing_beginExchange n mode hst hd).run hreset hcount
  obtain ⟨-, hres, -⟩ := hon.inv.listeningClear hon.listening
  refine ⟨u, (runEvents_cons es (exec_beginExchange d n mode s)).trans hrun, hon.listening, hres, hon.remaining,
    hon.explen_eq, hon.expmode_eq, fun hlast => ?_⟩
  rw [show d.toNat - tickCount es = 1 by omega] at hon
  exact hon.deadline

/-! ## A whole exchange -/

/-- R91, R126: ticks before the deadline, counted. -/
theorem runEvents_ticks {s : State} (hst : s.st = .listening) (k : Nat) (hk : k < s.rem.toNat) :
    runEvents (ticks k) s = .next { s with rem := s.rem - BitVec.ofNat 16 k } := by
  induction k generalizing s with
  | zero => simp [ticks, runEvents]
  | succ k ih =>
    have hrem : k < (s.rem - 1).toNat := by bv_omega
    have hsub : s.rem - BitVec.ofNat 16 (k + 1) = s.rem - 1 - BitVec.ofNat 16 k := by bv_omega
    rw [hsub]
    exact (runEvents_cons (ticks k) (exec_tick_countdown hst (by omega))).trans (ih hst hrem)

theorem runEvents_singleton (i : Instr) (s : State) : runEvents [i] s = exec i s := by
  simp only [runEvents]
  cases exec i s <;> rfl

/-- Of the ticks of a deadline the last alone resolves; the others bring `REM` to 1. -/
theorem runEvents_ticks_deadline {s : State} {d : U16} (hst : s.st = .listening) (hrem : s.rem = d) (hd : d ≠ 0) :
    runEvents (ticks d.toNat) s = exec .tick { s with rem := 1 } := by
  subst hrem
  have hpos : s.rem.toNat ≠ 0 := fun h => hd (BitVec.eq_of_toNat_eq h)
  have hone : s.rem - BitVec.ofNat 16 (s.rem.toNat - 1) = 1 := by bv_omega
  have hsplit : ticks s.rem.toNat = ticks (s.rem.toNat - 1) ++ [.tick] := by
    rw [ticks, ticks, ← List.replicate_succ', Nat.sub_add_cancel (by omega)]
  rw [hsplit, runEvents_append (runEvents_ticks hst _ (by omega)), hone, runEvents_singleton]

theorem receiveChunk_st (s : State) (bytes : List Byte) : (s.receiveChunk bytes).st = s.st := by
  obtain ⟨m, c, w, e⟩ := s.receiveChunk_frame bytes
  rw [e]

theorem receiveChunk_rem (s : State) (bytes : List Byte) : (s.receiveChunk bytes).rem = s.rem := by
  obtain ⟨m, c, w, e⟩ := s.receiveChunk_frame bytes
  rw [e]

/-- R24, R124: bytes received into an empty buffer are the received bytes, as far as they fit. -/
theorem received_receiveChunk {s : State} (hst : s.st = .listening) (hcnt : s.cnt = 0) (bytes : List Byte) :
    (s.receiveChunk bytes).received = .ok (bytes.take s.cfg.cap) := by
  have hzero : s.cnt.toNat = 0 := (cnt_eq_zero_iff s).1 hcnt
  refine received_of_bufRead ?_ fun i hi => ?_
  · rw [receiveChunk_cnt hst (by omega), hzero, List.length_take, Nat.zero_add]
  · have hfit : i < s.cfg.cap ∧ i < bytes.length := by rwa [List.length_take, lt_min_iff] at hi
    have hread := receiveChunk_bufRead_stored hst hfit.2 (by omega)
    rwa [hzero, Nat.zero_add, ← List.getElem_take (h := hi)] at hread

/-- The state the deadline tick finds: an exchange begun from `s`, `bytes` received, one tick left. -/
def atDeadline (s : State) (d n : U16) (mode : ExpMode) (bytes : List Byte) : State :=
  { (s.beginExchange d n mode).receiveChunk bytes with rem := 1 }

section
variable {s : State} {d : U16} (n : U16) (mode : ExpMode) (bytes : List Byte) (hst : s.st ≠ .listening) (hd : d ≠ 0)
include hst hd

theorem beginExchange_starts : (s.beginExchange d n mode).st = .listening ∧ (s.beginExchange d n mode).cnt = 0 ∧
    (s.beginExchange d n mode).rem = d ∧ (s.beginExchange d n mode).cfg = s.cfg := by
  rw [beginExchange_of_pos n mode hst hd]
  exact ⟨rfl, rfl, rfl, rfl⟩

theorem atDeadline_fields :
    (atDeadline s d n mode bytes).st = .listening ∧ (atDeadline s d n mode bytes).rem = 1 ∧
    (atDeadline s d n mode bytes).explen = n ∧ (atDeadline s d n mode bytes).expmode = mode ∧
    (atDeadline s d n mode bytes).errinfo = .none ∧ (atDeadline s d n mode bytes).rstatus = 0 := by
  obtain ⟨m, c, w, e⟩ := (s.beginExchange d n mode).receiveChunk_frame bytes
  rw [atDeadline, e, beginExchange_of_pos n mode hst hd]
  exact ⟨rfl, rfl, rfl, rfl, rfl, rfl⟩

theorem atDeadline_received : (atDeadline s d n mode bytes).received = .ok (bytes.take s.cfg.cap) := by
  obtain ⟨hst', hcnt, -, hcfg⟩ := beginExchange_starts n mode hst hd
  have hsame : (atDeadline s d n mode bytes).received = ((s.beginExchange d n mode).receiveChunk bytes).received :=
    State.received_congr rfl rfl rfl
  rw [hsame, received_receiveChunk hst' hcnt, hcfg]

/-- R122, R124, R126: BEGIN, the bytes and the ticks of the deadline are the deadline tick alone on `atDeadline`. -/
theorem runEvents_exchange : runEvents (.beginExchange d n mode :: (rxs bytes ++ ticks d.toNat)) s =
    exec .tick (atDeadline s d n mode bytes) := by
  obtain ⟨hst', -, hrem, -⟩ := beginExchange_starts n mode hst hd
  rw [runEvents_cons _ (exec_beginExchange d n mode s), runEvents_append (runEvents_rxs _ bytes)]
  exact runEvents_ticks_deadline ((receiveChunk_st _ bytes).trans hst') ((receiveChunk_rem _ bytes).trans hrem) hd

end

/-- R30: what every outcome of a decoded frame records of it. -/
theorem latchVerdict_reply (s : State) (t : Byte) (p : List Byte) (ck : Bool) :
    (s.latchVerdict (.ok t p ck)).decodedReply ∧ (s.latchVerdict (.ok t p ck)).rtype = t ∧
    (s.latchVerdict (.ok t p ck)).rplen = BitVec.ofNat 16 p.length ∧ (s.latchVerdict (.ok t p ck)).csumok = ck := by
  rcases s.latchVerdict_cases (.ok t p ck) with ⟨r, hv, -⟩ | ⟨t, p, ck, hv, -, e⟩ | ⟨p, ck, hv, -, e⟩ |
    ⟨b, p, ck, hv, -, e⟩ <;> cases hv <;> rw [e]
  · exact ⟨.inr rfl, rfl, rfl, rfl⟩
  · exact ⟨.inr rfl, rfl, rfl, rfl⟩
  · exact ⟨.inl rfl, rfl, rfl, rfl⟩

/-- R32: the payload of a decoded frame stands in `BUF` from index 9 on. -/
theorem bufRead_payload {s : State} {v : Bool} {raw : List Byte} {t : Byte} {p : List Byte} {ck : Bool}
    (hraw : s.received = .ok raw) (h : frameDecode v raw = .ok t p ck) {i : Nat} (hi : i < p.length) :
    s.bufRead (9 + i) = .ok p[i] := by
  obtain ⟨-, -, -, -, -, hfit, hp, -⟩ := frameDecode_ok h
  have hlt : 9 + i < raw.length := by omega
  have hbyte : p[i]? = raw[9 + i]? := by
    have := congrArg (·[i]?) hp
    simpa only [slice, Nat.add_sub_cancel_left, List.getElem?_take_of_lt hi, List.getElem?_drop] using this
  rw [List.getElem?_eq_getElem hi, List.getElem?_eq_getElem hlt, Option.some.injEq] at hbyte
  rw [received_bufRead hraw hlt, hbyte]

/-- R32: after a decoded frame is latched, the reply window reads its payload. -/
theorem rpay_latchVerdict {s : State} {v : Bool} {raw : List Byte} {t : Byte} {p : List Byte} {ck : Bool}
    (hraw : s.received = .ok raw) (h : frameDecode v raw = .ok t p ck) {i : Nat} (hi : i < p.length) :
    (s.latchVerdict (.ok t p ck)).rpay i = .ok p[i] := by
  obtain ⟨hdec, -, hplen, -⟩ := latchVerdict_reply s t p ck
  obtain ⟨hcfg, hbuf, -⟩ := s.latchVerdict_frame (.ok t p ck)
  have hread := (State.bufRead_congr hcfg hbuf (9 + i)).trans (bufRead_payload hraw h hi)
  rw [State.rpay, if_pos ⟨hdec, by rwa [hplen, rplen_toNat h]⟩, hread]

theorem buildFrame_length (a : U32) (t : Byte) (p : List Byte) : (buildFrame a t p).length = 11 + p.length := by
  simp [buildFrame, toBe16]
  omega

/-- R230: a frame that fits the buffer is received whole, and what is cut off is cut from the bytes after it. -/
theorem take_buildFrame_append (a : U32) (t : Byte) {p : List Byte} (g : List Byte) {cap : Nat}
    (h : 11 + p.length ≤ cap) :
    (buildFrame a t p ++ g).take cap = buildFrame a t p ++ g.take (cap - (11 + p.length)) := by
  rw [List.take_append, buildFrame_length, List.take_of_length_le ((buildFrame_length a t p).trans_le h)]

/-- Settles O19: the deadline tick finds the frame at the head of the received bytes, decodes it, and latches it. -/
theorem exchangeDeliversTheFirstFrame : Obligations.ExchangeDeliversTheFirstFrame := by
  intro s d n mode a t p g hst hd hfit
  have hp : p.length ≤ 65533 := by have := s.cfg.cap_le; omega
  have hraw := atDeadline_received n mode (buildFrame a t p ++ g) hst hd
  have hrun := runEvents_exchange n mode (buildFrame a t p ++ g) hst hd
  obtain ⟨hst', hrem, hn, hmode, herr, hstatus⟩ := atDeadline_fields n mode (buildFrame a t p ++ g) hst hd
  generalize atDeadline s d n mode (buildFrame a t p ++ g) = u at *
  have hlen := received_length hraw
  rw [List.length_take, List.length_append, buildFrame_length] at hlen
  rw [take_buildFrame_append a t g hfit] at hraw
  have hdec := frameDecode_buildFrame_append u.cfg.verifyChecksum a t (g.take (s.cfg.cap - (11 + p.length))) hp
  have htick := exec_tick_deadline hst' hrem hraw (by simp [buildFrame, frameBytes_cons])
  rw [hdec] at htick
  obtain ⟨-, htype, hplen, hck⟩ := latchVerdict_reply u t p true
  obtain ⟨-, -, hcnt, -, -, -, -, -, hdone, hzero, -⟩ := u.latchVerdict_frame (.ok t p true)
  refine ⟨_, hrun.trans htick, hdone, by simp [State.doneIrq, hdone], hzero, htype,
    by rw [hplen, rplen_toNat hdec], hck, by rw [hcnt, ← hlen],
    fun ht => ?notAck, fun ht hl => ?plen, fun ht hnil => ?empty, fun b q ht hq hl => ?ok,
    fun i hi => rpay_latchVerdict hraw hdec hi⟩
  case notAck =>
    rw [latchVerdict_notAck u p true ht]
    exact ⟨rfl, rfl, hstatus⟩
  case plen =>
    rw [ht, latchVerdict_plen true (.inr (by rwa [hn, hmode]))]
    exact ⟨rfl, rfl, hstatus⟩
  case empty =>
    rw [ht, latchVerdict_plen true (.inl hnil)]
    exact ⟨rfl, rfl, hstatus⟩
  case ok =>
    subst hq
    rw [ht, latchVerdict_expected true (by rwa [hn, hmode])]
    exact ⟨rfl, herr, rfl⟩

end Sys2Proof.Proofs.Collector
end

section
/-! The frames the command rows send, the reply fields the host extracts, and the status codes: the statements of
42_command_payloads.md. -/

open Sys2Proof Sys2Proof.Machine

namespace Sys2Proof.Proofs.Commands

open Sys2Proof.Proofs.Registers Sys2Proof.Proofs.Codec

/-! ## The reply fields -/

theorem rpay16_eq_word16 {s : State} {i : Nat} {h l : Byte} (hi : s.rpay i = .ok h) (hi' : s.rpay (i + 1) = .ok l) :
    s.rpay16 i = .ok (word16 h l) := by
  rw [State.rpay16, hi, hi']

/-- R32, R166: where two bytes of the reply payload stand, their field has a value. -/
theorem rpay16_of_lt_rplen {s : State} (hinv : s.Inv) (hdec : s.decodedReply) {i : Nat} (hi : i + 1 < s.rplen.toNat) :
    ∃ h l, s.rpay i = .ok h ∧ s.rpay (i + 1) = .ok l ∧ s.rpay16 i = .ok (word16 h l) := by
  obtain ⟨hwindow, -⟩ := replyWindowReadsThePayload s hinv
  obtain ⟨h, -, hh⟩ := hwindow i hdec (by omega)
  obtain ⟨l, -, hl⟩ := hwindow (i + 1) hdec hi
  exact ⟨h, l, hh, hl, rpay16_eq_word16 hh hl⟩

/-- Settles O32: the reply window reads the payload (O31), and a field is the `word16` of two bytes of it. -/
theorem replyFieldsAreBigEndian : Obligations.ReplyFieldsAreBigEndian := by
  intro s hinv hok
  obtain ⟨-, hstatus, -⟩ := replyWindowReadsThePayload s hinv
  refine ⟨hstatus hok, fun hlen => ?_, fun hlen => ?_⟩
  · obtain ⟨h, l, hh, hl, hfield⟩ := rpay16_of_lt_rplen hinv (.inl hok) (i := 1) (by omega)
    exact ⟨h, l, _, hh, hl, hfield, hfield, word16_toNat h l⟩
  · obtain ⟨h, l, hh, hl, hfield⟩ := rpay16_of_lt_rplen hinv (.inl hok) (i := 3) (by omega)
    exact ⟨h, l, _, hh, hl, hfield, word16_toNat h l⟩

/-! ## The payloads with operands, byte for byte -/

theorem payloadStoreModel_eq (id : U16) :
    payloadStoreModel id = [0x06, 0x01, BitVec.ofNat 8 (id.toNat / 256), BitVec.ofNat 8 id.toNat] := by
  rw [payloadStoreModel, toBe16_eq_ofNat]
  rfl

theorem payloadLoadModel_eq (id : U16) :
    payloadLoadModel id = [0x07, 0x01, BitVec.ofNat 8 (id.toNat / 256), BitVec.ofNat 8 id.toNat] := by
  rw [payloadLoadModel, toBe16_eq_ofNat]
  rfl

theorem payloadDeleteModel_eq (id : U16) :
    payloadDeleteModel id = [0x0c, BitVec.ofNat 8 (id.toNat / 256), BitVec.ofNat 8 id.toNat, 0x00, 0x01] := by
  rw [payloadDeleteModel, toBe16_eq_ofNat]
  rfl

theorem payloadVerifyPassword_eq (pw : U32) :
    payloadVerifyPassword pw = [0x13, BitVec.ofNat 8 (pw.toNat / 2 ^ 24), BitVec.ofNat 8 (pw.toNat / 2 ^ 16),
      BitVec.ofNat 8 (pw.toNat / 2 ^ 8), BitVec.ofNat 8 pw.toNat] := by
  rw [payloadVerifyPassword, toBe32_eq_ofNat]
  rfl

/-! ## A row that acts as ENCODE A, 1, payload -/

/-- R103, R105: the frame ENCODE makes of the payload is handed over, and nothing else changes. -/
theorem exec_command_frame {i : Instr} {s : State} {a : U32} {q frame : List Byte}
    (hrow : exec i s = exec (.encodeFrame a 1 q) s) (hframe : frameEncode a 1 q = some frame) :
    exec i s = .next { s with out := { s.out with tx := some frame } } := by
  rw [hrow, exec_encodeFrame, State.transmit, hframe]

/-- R150, R165 (log 6): what is said of a command whose payload `q` is the bytes `p`. -/
theorem exec_command_sends {i : Instr} {s : State} {a : U32} {q p : List Byte} {reply : U16 × ExpMode}
    (hrow : exec i s = exec (.encodeFrame a 1 q) s) (hreply : expectedReply i = some reply) (hq : q = p)
    (hfit : p.length ≤ 65533) :
    exec i s = exec (.encodeFrame a 1 p) s ∧
      exec i s = .next { s with out := { s.out with tx := some (buildFrame a 1 p) } } ∧
      expectedReply i = some reply := by
  subst hq
  exact ⟨hrow, exec_command_frame hrow (frameEncode_of_fits a 1 hfit), hreply⟩

/-- Settles O22: each row transmits its payload, and the payloads with operands are written out by the lemmas above. -/
theorem statusOnlyCommandsSendTheirFrames : Obligations.StatusOnlyCommandsSendTheirFrames := by
  refine ⟨fun a slot id pw s => ⟨?capture, ?extract, ?register, ?store, ?load, ?delete, ?empty, ?verify⟩,
    fun s => ⟨?_, ?_, ?_, ?_, ?_, ?_, ?_, ?_, ?_⟩⟩
  case capture => exact exec_command_sends rfl rfl rfl (by simp)
  case extract => exact exec_command_sends rfl rfl rfl (by simp)
  case register => exact exec_command_sends rfl rfl rfl (by simp)
  case store => exact exec_command_sends rfl rfl (payloadStoreModel_eq id) (by simp)
  case load => exact exec_command_sends rfl rfl (payloadLoadModel_eq id) (by simp)
  case delete => exact exec_command_sends rfl rfl (payloadDeleteModel_eq id) (by simp)
  case empty => exact exec_command_sends rfl rfl rfl (by simp)
  case verify => exact exec_command_sends rfl rfl (payloadVerifyPassword_eq pw) (by simp)
  all_goals exact exec_command_frame rfl (by decide)

/-- Settles O23: each row transmits its constant payload. -/
theorem longReplyCommandsSendTheirFrames : Obligations.LongReplyCommandsSendTheirFrames := by
  refine ⟨fun a s => ⟨?upload, ?search, ?count⟩, fun s => ⟨?_, ?_, ?_⟩⟩
  case upload => exact exec_command_sends rfl rfl rfl (by simp)
  case search => exact exec_command_sends rfl rfl rfl (by simp)
  case count => exact exec_command_sends rfl rfl rfl (by simp)
  all_goals exact exec_command_frame rfl (by decide)

/-! ## The status codes -/

theorem statusClass_of_not_mem {b : Byte} (h : ∀ e ∈ statusTable, e.1 ≠ b) : statusClass b = .unknownError := by
  have hnone : (statusTable.find? fun e => e.1 == b) = none := List.find?_eq_none.2 fun e he => by simpa using h e he
  rw [statusClass, hnone]
  rfl

theorem statusTable_codes : ∀ e ∈ statusTable, e.1.toNat ≤ 0x1a ∨ e.1.toNat = 0xff := by decide

/-- Settles O33: the table's rows are looked up; no row has a code of the gaps, or one from 1B to FE. -/
theorem statusCodesAreClassified : Obligations.StatusCodesAreClassified := by
  refine ⟨rfl, rfl, rfl, rfl, rfl, rfl, rfl, rfl, rfl, rfl, rfl, rfl, rfl, rfl, rfl, rfl, rfl, rfl, rfl, rfl, ?unknown⟩
  case unknown =>
    rintro b (hgap | ⟨hlow, hhigh⟩)
    · revert b
      decide
    · refine statusClass_of_not_mem fun e he heq => ?_
      have hcode := statusTable_codes e he
      rw [heq] at hcode
      omega

end Sys2Proof.Proofs.Commands
end

section
/-! What the record says of the bytes in `BUF` over all events: the statement of 60_exceptions.md. -/

open Sys2Proof Sys2Proof.Machine

namespace Sys2Proof.Proofs.Exceptions

open Sys2Proof.Proofs.Registers

/-! ## What EXPIRE on a verdict does not read -/

/-- R130: `ST`, `REM` and `RESULT` are overwritten, whatever they were. -/
theorem latchVerdict_of_any_outcome (s : State) (st : St) (rem : U16) (result : Result) (v : Verdict) :
    { s with st := st, rem := rem, result := result }.latchVerdict v = s.latchVerdict v := rfl

/-- R130: the flags, what is presented and the outputs pass through. -/
theorem latchVerdict_setIo (s : State) (w : BitVec 4) (p : List Presented) (o : Outputs) (v : Verdict) :
    { s with flags := w, inputs := p, out := o }.latchVerdict v =
      { s.latchVerdict v with flags := w, inputs := p, out := o } := by
  rcases s.latchVerdict_cases v with
    ⟨r, hv, e⟩ | ⟨t, pl, ck, hv, ht, e⟩ | ⟨pl, ck, hv, hl, e⟩ | ⟨status, pl, ck, hv, hl, e⟩ <;> rw [e] <;> subst hv
  · rfl
  · simp [State.latchVerdict, ht]
  · cases pl with
    | nil => simp [State.latchVerdict]
    | cons b pl => simpa [State.latchVerdict] using hl
  · simp [State.latchVerdict, hl]

/-- R203: clearing the record again undoes a latch on a clear record, but for the outcome. -/
theorem clear_latchVerdict {s : State} (hclear : s.recordClear) (v : Verdict) :
    { s.latchVerdict v with errinfo := .none, rtype := 0, rplen := 0, rstatus := 0, csumok := false } =
      { s with st := .done, rem := 0, result := (s.latchVerdict v).result } := by
  obtain ⟨herr, htype, hplen, hstatus, hck⟩ := hclear
  rcases s.latchVerdict_cases v with
    ⟨r, -, e⟩ | ⟨t, p, ck, -, -, e⟩ | ⟨p, ck, -, -, e⟩ | ⟨status, p, ck, -, -, e⟩ <;>
    simp only [e, herr, htype, hplen, hstatus, hck]

/-! ## Where the record agrees with the bytes -/

theorem recordAgrees_of_st_ne_done {s : State} (hst : s.st ≠ .done) : s.RecordAgrees := fun h => absurd h hst

theorem recordAgrees_of_cnt_eq_zero {s : State} (hcnt : s.cnt = 0) : s.RecordAgrees := fun _ h => absurd hcnt h

/-- The agreement speaks of no flag, no presented item and no output. -/
theorem recordAgrees_setIo {s : State} (h : s.RecordAgrees) (w : BitVec 4) (p : List Presented) (o : Outputs) :
    { s with flags := w, inputs := p, out := o }.RecordAgrees := by
  intro hst hcnt
  obtain ⟨raw, hraw, hrecord⟩ := h hst hcnt
  have hreceived : { s with flags := w, inputs := p, out := o }.received = s.received :=
    State.received_congr rfl rfl rfl
  refine ⟨raw, hreceived.trans hraw, ?_⟩
  exact (congrArg (fun u : State => { u with flags := w, inputs := p, out := o }) hrecord).trans
    (latchVerdict_setIo _ w p o _).symm

/-- R203: what the deadline latches on the received bytes is what latching it again gives. -/
theorem recordAgrees_latchVerdict {s : State} {raw : List Byte} (hclear : s.recordClear) (hraw : s.received = .ok raw) :
    (s.latchVerdict (frameDecode s.cfg.verifyChecksum raw)).RecordAgrees := by
  intro _ _
  obtain ⟨hcfg, hbuf, hcnt, -⟩ := s.latchVerdict_frame (frameDecode s.cfg.verifyChecksum raw)
  refine ⟨raw, (State.received_congr hcfg hbuf hcnt).trans hraw, ?_⟩
  rw [clear_latchVerdict hclear, hcfg]
  exact (latchVerdict_of_any_outcome s _ _ _ _).symm

/-! ## Every event keeps the agreement -/

theorem recordAgrees_raise {s : State} (f : Flag) (h : s.RecordAgrees) : (s.raise f).RecordAgrees :=
  recordAgrees_setIo h _ s.inputs s.out

theorem recordAgrees_rxByte {s : State} (b : Byte) (h : s.RecordAgrees) : (s.rxByte b).RecordAgrees := by
  rcases s.rxByte_cases b with ⟨-, e⟩ | ⟨hst, -, e⟩ | ⟨-, -, e⟩ <;> rw [e]
  · exact recordAgrees_raise _ h
  · exact recordAgrees_of_st_ne_done (by simp [hst])
  · exact recordAgrees_raise _ h

theorem recordAgrees_beginExchange {s : State} (d n : U16) (mode : ExpMode) (h : s.RecordAgrees) :
    (s.beginExchange d n mode).RecordAgrees := by
  rcases s.beginExchange_cases d n mode with ⟨-, e⟩ | ⟨-, -, e⟩ | ⟨-, -, e⟩ <;> rw [e]
  · exact recordAgrees_raise _ h
  · exact recordAgrees_of_cnt_eq_zero rfl
  · exact recordAgrees_of_cnt_eq_zero rfl

theorem recordAgrees_releaseResult {s : State} (h : s.RecordAgrees) : s.releaseResult.RecordAgrees := by
  rcases s.releaseResult_cases with ⟨-, e⟩ | ⟨-, e⟩ | ⟨-, e⟩ <;> rw [e]
  · exact recordAgrees_of_cnt_eq_zero rfl
  · exact recordAgrees_raise _ h
  · exact h

theorem recordAgrees_expire {s t : State} (hclear : s.recordClear) (h : s.expire = .next t) : t.RecordAgrees := by
  rcases s.expire_cases with ⟨hcnt, e⟩ | ⟨-, raw, hraw, e⟩ | ⟨-, f, -, e⟩ <;> rw [e] at h <;> cases h
  · exact recordAgrees_of_cnt_eq_zero hcnt
  · exact recordAgrees_latchVerdict hclear hraw

theorem recordAgrees_tickEvent {s t : State} (hinv : s.Inv) (hagree : s.RecordAgrees) (h : s.tickEvent = .next t) :
    t.RecordAgrees := by
  rcases s.tickEvent_cases with ⟨-, e⟩ | ⟨hst, -, e⟩ | ⟨hst, -, e⟩ <;> rw [e] at h
  · cases h
    exact hagree
  · cases h
    exact recordAgrees_of_st_ne_done (by simp [hst])
  · obtain ⟨-, -, hclear⟩ := hinv.listeningClear hst
    exact recordAgrees_expire hclear h

theorem exec_keeps_recordAgrees {i : Instr} {s t : State} (hinv : s.Inv) (hagree : s.RecordAgrees)
    (h : exec i s = .next t) : t.RecordAgrees := by
  cases i with
  | frameCommand | frameData | frameAck | frameEnd | frameReserved | rx =>
    rw [eq_of_exec_received rfl h]
    exact recordAgrees_setIo (recordAgrees_rxByte _ hagree) _ _ _
  | beginExchange d n mode => cases h; exact recordAgrees_beginExchange d n mode hagree
  | release => cases h; exact recordAgrees_releaseResult hagree
  | tick => exact recordAgrees_tickEvent hinv hagree h
  | reset => cases h; exact recordAgrees_of_cnt_eq_zero rfl
  | _ => cases h; exact recordAgrees_setIo hagree _ _ _

/-- Settles O35: together with the invariant, which keeps the record clear until the deadline (R40.5), the fetch and
every event keep the agreement. -/
theorem everyStepKeepsTheRecordTrue : Obligations.EveryStepKeepsTheRecordTrue := by
  intro s t hinv hagree h
  have hboth : t.Inv ∧ t.RecordAgrees :=
    step_keeps (P := fun s => s.Inv ∧ s.RecordAgrees)
      (fun s p o ⟨hinv, hagree⟩ => ⟨inv_setIo hinv s.flags p o, recordAgrees_setIo hagree s.flags p o⟩)
      (fun _ _ _ ⟨hinv, hagree⟩ he => ⟨exec_keeps_inv hinv he, exec_keeps_recordAgrees hinv hagree he⟩)
      ⟨hinv, hagree⟩ h
  exact hboth.2

end Sys2Proof.Proofs.Exceptions
end

section
/-! Received bytes with no start marker in front, at the deadline: the statement of 70_reset_and_hazards.md. -/

open Sys2Proof Sys2Proof.Machine

namespace Sys2Proof.Proofs.Hazards

open Sys2Proof.Proofs.Codec

/-- R130: on a decode failure the deadline latches its reason and nothing else of the record. -/
theorem latchVerdict_badFrame (s : State) (r : BadReason) :
    s.latchVerdict (.badFrame r) = { s with st := .done, rem := 0, result := .badPacket, errinfo := r.errinfo } := rfl

/-- Settles O21: DECODE's first test, on the bytes at index 0 and 1 alone, gives the verdict the deadline latches. -/
theorem noResynchronisation : Obligations.NoResynchronisation := by
  intro s raw hst hrem hraw hne hmark
  have hdec : frameDecode s.cfg.verifyChecksum raw = .badFrame .marker := frameDecode_no_marker _ hmark
  rw [exec_tick_deadline hst hrem hraw hne, hdec, latchVerdict_badFrame]
  rfl

end Sys2Proof.Proofs.Hazards
end
